-- ==== Sys2Proof/Word.lean ====
section
/-! DEFINITION. The word, the byte and the register index of the mvm RV32I core. -/

namespace Sys2Proof

/-- A register value, an immediate, an address or the pc: a 32-bit vector (R7 `XLEN`, R8, R10, R16, R30). -/
abbrev Word := BitVec 32

/-- One byte of memory (R27, R29). -/
abbrev Byte := BitVec 8

/-- The index of a general register, a 5-bit field of the instruction (R10, R54), so always in 0 to 31. -/
abbrev RegIdx := BitVec 5

end Sys2Proof
end

