-- ==== Sys2Proof/Syntax.lean ====
section
/-! DEFINITION. The 37 instructions of the mvm RV32I core, one constructor for each row of the opcode table (R67).
Operands are the decoder's outputs: register indices of 5 bits, the immediate as the 32-bit value rules R56 to R60
give it, and for the immediate shifts the 5-bit amount (R114 to R116). `WellFormed` says which immediates a layout
can encode. -/

namespace Sys2Proof

/-- An instruction: a word with a mapped opcode whose function bits select a row of R67. -/
inductive Instr where
  /-- LUI, R117 -/
  | lui (rd : RegIdx) (imm : Word)
  /-- AUIPC, R118 -/
  | auipc (rd : RegIdx) (imm : Word)
  /-- JAL, R119 -/
  | jal (rd : RegIdx) (imm : Word)
  /-- JALR, R120 -/
  | jalr (rd rs1 : RegIdx) (imm : Word)
  /-- BEQ, R123 -/
  | beq (rs1 rs2 : RegIdx) (imm : Word)
  /-- BNE, R124 -/
  | bne (rs1 rs2 : RegIdx) (imm : Word)
  /-- BLT, R125 -/
  | blt (rs1 rs2 : RegIdx) (imm : Word)
  /-- BGE, R126 -/
  | bge (rs1 rs2 : RegIdx) (imm : Word)
  /-- BLTU, R127 -/
  | bltu (rs1 rs2 : RegIdx) (imm : Word)
  /-- BGEU, R128 -/
  | bgeu (rs1 rs2 : RegIdx) (imm : Word)
  /-- LB, R130 -/
  | lb (rd rs1 : RegIdx) (imm : Word)
  /-- LH, R131 -/
  | lh (rd rs1 : RegIdx) (imm : Word)
  /-- LW, R132 -/
  | lw (rd rs1 : RegIdx) (imm : Word)
  /-- LBU, R133 -/
  | lbu (rd rs1 : RegIdx) (imm : Word)
  /-- LHU, R134 -/
  | lhu (rd rs1 : RegIdx) (imm : Word)
  /-- SB, R136: `rs1` is the base, `rs2` the data -/
  | sb (rs1 rs2 : RegIdx) (imm : Word)
  /-- SH, R137 -/
  | sh (rs1 rs2 : RegIdx) (imm : Word)
  /-- SW, R138 -/
  | sw (rs1 rs2 : RegIdx) (imm : Word)
  /-- ADDI, R108 -/
  | addi (rd rs1 : RegIdx) (imm : Word)
  /-- SLTI, R109 -/
  | slti (rd rs1 : RegIdx) (imm : Word)
  /-- SLTIU, R110 -/
  | sltiu (rd rs1 : RegIdx) (imm : Word)
  /-- XORI, R111 -/
  | xori (rd rs1 : RegIdx) (imm : Word)
  /-- ORI, R112 -/
  | ori (rd rs1 : RegIdx) (imm : Word)
  /-- ANDI, R113 -/
  | andi (rd rs1 : RegIdx) (imm : Word)
  /-- SLLI, R114 -/
  | slli (rd rs1 : RegIdx) (shamt : BitVec 5)
  /-- SRLI, R115 -/
  | srli (rd rs1 : RegIdx) (shamt : BitVec 5)
  /-- SRAI, R116 -/
  | srai (rd rs1 : RegIdx) (shamt : BitVec 5)
  /-- ADD, R97 -/
  | add (rd rs1 rs2 : RegIdx)
  /-- SUB, R98 -/
  | sub (rd rs1 rs2 : RegIdx)
  /-- SLL, R99 -/
  | sll (rd rs1 rs2 : RegIdx)
  /-- SLT, R100 -/
  | slt (rd rs1 rs2 : RegIdx)
  /-- SLTU, R101 -/
  | sltu (rd rs1 rs2 : RegIdx)
  /-- XOR, R102 -/
  | xor (rd rs1 rs2 : RegIdx)
  /-- SRL, R103 -/
  | srl (rd rs1 rs2 : RegIdx)
  /-- SRA, R104 -/
  | sra (rd rs1 rs2 : RegIdx)
  /-- OR, R105 -/
  | or (rd rs1 rs2 : RegIdx)
  /-- AND, R106 -/
  | and (rd rs1 rs2 : RegIdx)
deriving DecidableEq, Repr

end Sys2Proof
end

