-- ==== Sys2Proof/WellFormed.lean ====
section
/-! DEFINITION. Which terms of `Instr` an instruction word can encode: the ranges of the immediates (R56 to R60).
Register indices and shift amounts are 5-bit fields and need no check (R54, R114). -/

namespace Sys2Proof

/-- Layouts I and S: a signed 12-bit value, -2048 to 2047 (R56, R57). -/
def imm12Ok (imm : Word) : Bool := decide (-2048 ≤ imm.toInt ∧ imm.toInt ≤ 2047)

/-- Layout B: an even signed 13-bit value, -4096 to 4094 (R58). -/
def imm13Ok (imm : Word) : Bool := decide (-4096 ≤ imm.toInt ∧ imm.toInt ≤ 4094) && decide (imm.toNat % 2 = 0)

/-- Layout U: the low 12 bits are zero (R59). -/
def immUpperOk (imm : Word) : Bool := decide (imm.toNat % 4096 = 0)

/-- Layout J: an even signed 21-bit value, -1048576 to 1048574 (R60). -/
def imm21Ok (imm : Word) : Bool :=
  decide (-1048576 ≤ imm.toInt ∧ imm.toInt ≤ 1048574) && decide (imm.toNat % 2 = 0)

/-- The immediate of the instruction is one its layout can encode. -/
def Instr.wellFormed : Instr → Bool
  | .lui _ imm | .auipc _ imm => immUpperOk imm
  | .jal _ imm => imm21Ok imm
  | .jalr _ _ imm => imm12Ok imm
  | .beq _ _ imm | .bne _ _ imm | .blt _ _ imm | .bge _ _ imm | .bltu _ _ imm | .bgeu _ _ imm => imm13Ok imm
  | .lb _ _ imm | .lh _ _ imm | .lw _ _ imm | .lbu _ _ imm | .lhu _ _ imm => imm12Ok imm
  | .sb _ _ imm | .sh _ _ imm | .sw _ _ imm => imm12Ok imm
  | .addi _ _ imm | .slti _ _ imm | .sltiu _ _ imm | .xori _ _ imm | .ori _ _ imm | .andi _ _ imm => imm12Ok imm
  | .slli _ _ _ | .srli _ _ _ | .srai _ _ _ => true
  | .add _ _ _ | .sub _ _ _ | .sll _ _ _ | .slt _ _ _ | .sltu _ _ _ | .xor _ _ _ | .srl _ _ _ | .sra _ _ _
  | .or _ _ _ | .and _ _ _ => true

end Sys2Proof
end

