-- ==== Sys2Proof/Decode.lean ====
section
/-! DEFINITION. The decoder block (R3, R51 to R66), the selection of the instruction (R67 to R69), and the encoder
written from the same layouts. Decoding is total: a word that selects no instruction is rejected by name. -/

namespace Sys2Proof

/-! ### Fields and layouts -/

/-- `raw[6:0]` (R53). -/
def opcodeOf (raw : Word) : BitVec 7 := raw.extractLsb' 0 7
/-- `raw[11:7]` (R54). -/
def rdOf (raw : Word) : RegIdx := raw.extractLsb' 7 5
/-- `raw[14:12]` (R54). -/
def funct3Of (raw : Word) : BitVec 3 := raw.extractLsb' 12 3
/-- `raw[19:15]` (R54). -/
def rs1Of (raw : Word) : RegIdx := raw.extractLsb' 15 5
/-- `raw[24:20]` (R54). -/
def rs2Of (raw : Word) : RegIdx := raw.extractLsb' 20 5
/-- `raw[31:25]` (R54). -/
def funct7Of (raw : Word) : BitVec 7 := raw.extractLsb' 25 7

/-- The six encoding layouts (R55 to R60, conflict C1). -/
inductive Layout where
  /-- register-register, R55 -/
  | R
  /-- immediate, R56 -/
  | I
  /-- store, R57 -/
  | S
  /-- branch, R58 -/
  | B
  /-- upper-immediate, R59 -/
  | U
  /-- jump, R60 -/
  | J
deriving DecidableEq, Repr

/-- The layout an opcode selects; nine opcode values are mapped and no other (R61). -/
def layoutOf (opcode : BitVec 7) : Option Layout :=
  match opcode with
  | 0b0110011#7 => some .R
  | 0b0010011#7 => some .I
  | 0b0000011#7 => some .I
  | 0b1100111#7 => some .I
  | 0b0100011#7 => some .S
  | 0b1100011#7 => some .B
  | 0b0110111#7 => some .U
  | 0b0010111#7 => some .U
  | 0b1101111#7 => some .J
  | _ => none

/-- Layout I: `sext_12(raw[31:20])` (R56). -/
def immI (raw : Word) : Word := (raw.extractLsb' 20 12).signExtend 32

/-- Layout S: `sext_12({raw[31:25], raw[11:7]})` (R57). -/
def immS (raw : Word) : Word := (raw.extractLsb' 25 7 ++ raw.extractLsb' 7 5).signExtend 32

/-- Layout B: `sext_13({raw[31], raw[7], raw[30:25], raw[11:8], 1'b0})` (R58). -/
def immB (raw : Word) : Word :=
  (raw.extractLsb' 31 1 ++ raw.extractLsb' 7 1 ++ raw.extractLsb' 25 6 ++ raw.extractLsb' 8 4 ++ 0#1).signExtend 32

/-- Layout U: `{raw[31:12], 12'b0}` (R59). -/
def immU (raw : Word) : Word := (raw.extractLsb' 12 20 ++ 0#12).setWidth 32

/-- Layout J: `sext_21({raw[31], raw[19:12], raw[20], raw[30:21], 1'b0})` (R60). -/
def immJ (raw : Word) : Word :=
  (raw.extractLsb' 31 1 ++ raw.extractLsb' 12 8 ++ raw.extractLsb' 20 1 ++ raw.extractLsb' 21 10 ++ 0#1).signExtend 32

/-! ### The decoder's output record -/

/-- The decoder's outputs (R3, R62, R66). A field the layout does not have is the empty option. -/
structure Decoded where
  /-- 0 when the opcode is unmapped (R65) -/
  legal : Bool
  /-- the word, passed through (R3, decision D15) -/
  raw : Word
  /-- always output (R53) -/
  opcode : BitVec 7
  /-- absent exactly when the word is not legal -/
  layout : Option Layout
  rd : Option RegIdx
  rs1 : Option RegIdx
  rs2 : Option RegIdx
  funct3 : Option (BitVec 3)
  funct7 : Option (BitVec 7)
  imm : Option Word
deriving DecidableEq, Repr

/-- The layout has an `rd` (R62). -/
def Layout.hasRd : Layout → Bool
  | .R | .I | .U | .J => true
  | .S | .B => false

/-- The layout has an `rs1` (R62). -/
def Layout.hasRs1 : Layout → Bool
  | .R | .I | .S | .B => true
  | .U | .J => false

/-- The layout has an `rs2` (R62). -/
def Layout.hasRs2 : Layout → Bool
  | .R | .S | .B => true
  | .I | .U | .J => false

/-- The layout has a `funct3` (R62). -/
def Layout.hasFunct3 : Layout → Bool
  | .R | .I | .S | .B => true
  | .U | .J => false

/-- The layout has a `funct7` (R62). -/
def Layout.hasFunct7 : Layout → Bool
  | .R => true
  | .I | .S | .B | .U | .J => false

/-- The five-way immediate selection (R63); layout R has none. -/
def Layout.imm (l : Layout) (raw : Word) : Option Word :=
  match l with
  | .R => none
  | .I => some (immI raw)
  | .S => some (immS raw)
  | .B => some (immB raw)
  | .U => some (immU raw)
  | .J => some (immJ raw)

/-- A field, present when the layout has it (R62). -/
def present {α : Type} (has : Bool) (field : α) : Option α := if has then some field else none

/-- `Decode(raw)` (R66). -/
def decodeFields (raw : Word) : Decoded :=
  match layoutOf (opcodeOf raw) with
  | none =>
    { legal := false, raw := raw, opcode := opcodeOf raw, layout := none, rd := none, rs1 := none, rs2 := none,
      funct3 := none, funct7 := none, imm := none }
  | some l =>
    { legal := true, raw := raw, opcode := opcodeOf raw, layout := some l,
      rd := present l.hasRd (rdOf raw),
      rs1 := present l.hasRs1 (rs1Of raw),
      rs2 := present l.hasRs2 (rs2Of raw),
      funct3 := present l.hasFunct3 (funct3Of raw),
      funct7 := present l.hasFunct7 (funct7Of raw),
      imm := l.imm raw }

/-! ### From decoded fields to an instruction -/

/-- Opcode OP: `{funct7, funct3}` (R68). -/
def selectOp (funct7 : BitVec 7) (funct3 : BitVec 3) (rd rs1 rs2 : RegIdx) : Option Instr :=
  match funct7, funct3 with
  | 0b0000000#7, 0b000#3 => some (.add rd rs1 rs2)
  | 0b0100000#7, 0b000#3 => some (.sub rd rs1 rs2)
  | 0b0000000#7, 0b001#3 => some (.sll rd rs1 rs2)
  | 0b0000000#7, 0b010#3 => some (.slt rd rs1 rs2)
  | 0b0000000#7, 0b011#3 => some (.sltu rd rs1 rs2)
  | 0b0000000#7, 0b100#3 => some (.xor rd rs1 rs2)
  | 0b0000000#7, 0b101#3 => some (.srl rd rs1 rs2)
  | 0b0100000#7, 0b101#3 => some (.sra rd rs1 rs2)
  | 0b0000000#7, 0b110#3 => some (.or rd rs1 rs2)
  | 0b0000000#7, 0b111#3 => some (.and rd rs1 rs2)
  | _, _ => none

/-- Opcode OP-IMM: `funct3`, and for the shifts `imm[11:5]`, the amount being `imm[4:0]` (R56, R68, R114 to R116). -/
def selectOpImm (funct3 : BitVec 3) (rd rs1 : RegIdx) (imm : Word) : Option Instr :=
  match funct3 with
  | 0b000#3 => some (.addi rd rs1 imm)
  | 0b010#3 => some (.slti rd rs1 imm)
  | 0b011#3 => some (.sltiu rd rs1 imm)
  | 0b100#3 => some (.xori rd rs1 imm)
  | 0b110#3 => some (.ori rd rs1 imm)
  | 0b111#3 => some (.andi rd rs1 imm)
  | 0b001#3 =>
    match imm.extractLsb' 5 7 with
    | 0b0000000#7 => some (.slli rd rs1 (imm.extractLsb' 0 5))
    | _ => none
  | 0b101#3 =>
    match imm.extractLsb' 5 7 with
    | 0b0000000#7 => some (.srli rd rs1 (imm.extractLsb' 0 5))
    | 0b0100000#7 => some (.srai rd rs1 (imm.extractLsb' 0 5))
    | _ => none
  | _ => none

/-- Opcode LOAD (R68). -/
def selectLoad (funct3 : BitVec 3) (rd rs1 : RegIdx) (imm : Word) : Option Instr :=
  match funct3 with
  | 0b000#3 => some (.lb rd rs1 imm)
  | 0b001#3 => some (.lh rd rs1 imm)
  | 0b010#3 => some (.lw rd rs1 imm)
  | 0b100#3 => some (.lbu rd rs1 imm)
  | 0b101#3 => some (.lhu rd rs1 imm)
  | _ => none

/-- Opcode STORE (R68). -/
def selectStore (funct3 : BitVec 3) (rs1 rs2 : RegIdx) (imm : Word) : Option Instr :=
  match funct3 with
  | 0b000#3 => some (.sb rs1 rs2 imm)
  | 0b001#3 => some (.sh rs1 rs2 imm)
  | 0b010#3 => some (.sw rs1 rs2 imm)
  | _ => none

/-- Opcode BRANCH (R68). -/
def selectBranch (funct3 : BitVec 3) (rs1 rs2 : RegIdx) (imm : Word) : Option Instr :=
  match funct3 with
  | 0b000#3 => some (.beq rs1 rs2 imm)
  | 0b001#3 => some (.bne rs1 rs2 imm)
  | 0b100#3 => some (.blt rs1 rs2 imm)
  | 0b101#3 => some (.bge rs1 rs2 imm)
  | 0b110#3 => some (.bltu rs1 rs2 imm)
  | 0b111#3 => some (.bgeu rs1 rs2 imm)
  | _ => none

/-- Opcode JALR (R68). -/
def selectJalr (funct3 : BitVec 3) (rd rs1 : RegIdx) (imm : Word) : Option Instr :=
  match funct3 with
  | 0b000#3 => some (.jalr rd rs1 imm)
  | _ => none

/-- The instruction of a decoded record: the dispatch of `Execute(d)` (R67, R68). `none` where the function bits
select nothing (R69) or the word is not legal (R65). -/
def select (d : Decoded) : Option Instr :=
  match d.opcode with
  | 0b0110111#7 => d.rd.bind fun rd => d.imm.bind fun imm => some (.lui rd imm)
  | 0b0010111#7 => d.rd.bind fun rd => d.imm.bind fun imm => some (.auipc rd imm)
  | 0b1101111#7 => d.rd.bind fun rd => d.imm.bind fun imm => some (.jal rd imm)
  | 0b1100111#7 =>
    d.funct3.bind fun f3 => d.rd.bind fun rd => d.rs1.bind fun rs1 => d.imm.bind fun imm => selectJalr f3 rd rs1 imm
  | 0b1100011#7 =>
    d.funct3.bind fun f3 => d.rs1.bind fun rs1 => d.rs2.bind fun rs2 => d.imm.bind fun imm =>
      selectBranch f3 rs1 rs2 imm
  | 0b0000011#7 =>
    d.funct3.bind fun f3 => d.rd.bind fun rd => d.rs1.bind fun rs1 => d.imm.bind fun imm => selectLoad f3 rd rs1 imm
  | 0b0100011#7 =>
    d.funct3.bind fun f3 => d.rs1.bind fun rs1 => d.rs2.bind fun rs2 => d.imm.bind fun imm =>
      selectStore f3 rs1 rs2 imm
  | 0b0010011#7 =>
    d.funct3.bind fun f3 => d.rd.bind fun rd => d.rs1.bind fun rs1 => d.imm.bind fun imm => selectOpImm f3 rd rs1 imm
  | 0b0110011#7 =>
    d.funct7.bind fun f7 => d.funct3.bind fun f3 => d.rd.bind fun rd => d.rs1.bind fun rs1 => d.rs2.bind fun rs2 =>
      selectOp f7 f3 rd rs1 rs2
  | _ => none

/-- Why the decoder answers no instruction. -/
inductive DecodeReject where
  /-- fewer than four bytes are left (log entry 10); the fetch never gives that -/
  | truncated
  /-- the opcode is none of the nine (R65): rejected by `Decode` -/
  | unmappedOpcode (raw : Word)
  /-- the opcode is mapped and the function bits select no instruction (R69): rejected by `Execute` -/
  | unknownFunction (raw : Word)
deriving DecidableEq, Repr

/-- The instruction of a word, or the name of its rejection. -/
def decode (raw : Word) : Except DecodeReject Instr :=
  if (decodeFields raw).legal then
    match select (decodeFields raw) with
    | some i => .ok i
    | none => .error (.unknownFunction raw)
  else .error (.unmappedOpcode raw)

/-- The word of four bytes in ascending address order: little-endian (R35, R52). -/
def wordOfBytes (b0 b1 b2 b3 : Byte) : Word :=
  (b3 ++ b2 ++ b1 ++ b0).setWidth 32

/-- The four bytes of a word in ascending address order (R35, R52). -/
def bytesOfWord (w : Word) : List Byte :=
  [w.extractLsb' 0 8, w.extractLsb' 8 8, w.extractLsb' 16 8, w.extractLsb' 24 8]

/-- Decodes the instruction at the head of a list of bytes and answers the bytes after it. -/
def decodeBytes : List Byte → Except DecodeReject (Instr × List Byte)
  | b0 :: b1 :: b2 :: b3 :: rest =>
    match decode (wordOfBytes b0 b1 b2 b3) with
    | .ok i => .ok (i, rest)
    | .error e => .error e
  | _ => .error .truncated

/-- The instruction word whose bits are `w`, of which the table gives `nbits`; every bit above is 0. -/
def tableWord (nbits w : Nat) : Word := BitVec.ofNat 32 (w % 2 ^ nbits)

/-- What the decoder reads from an instruction whose bits are `w`, numbered as the opcode table numbers them. -/
def decodeTableWord (nbits w : Nat) : Option Instr :=
  match decodeBytes (bytesOfWord (tableWord nbits w)) with
  | .ok (i, _) => some i
  | .error _ => none

/-! ### The encoder -/

/-- A field of `n` bits at bit `lo` of the word, every other bit 0. -/
def place {n : Nat} (field : BitVec n) (lo : Nat) : Word := field.setWidth 32 <<< lo

/-- Layout R (R55). -/
def encodeR (funct7 : BitVec 7) (funct3 : BitVec 3) (rd rs1 rs2 : RegIdx) : Word :=
  place funct7 25 ||| place rs2 20 ||| place rs1 15 ||| place funct3 12 ||| place rd 7 ||| place 0b0110011#7 0

/-- Layout I (R56). -/
def encodeI (opcode : BitVec 7) (funct3 : BitVec 3) (rd rs1 : RegIdx) (imm : Word) : Word :=
  place (imm.extractLsb' 0 12) 20 ||| place rs1 15 ||| place funct3 12 ||| place rd 7 ||| place opcode 0

/-- Layout I of an immediate shift: `imm[11:5]` is the discriminant, `imm[4:0]` the amount (R56, R114 to R116). -/
def encodeShift (funct7 : BitVec 7) (funct3 : BitVec 3) (rd rs1 : RegIdx) (shamt : BitVec 5) : Word :=
  place funct7 25 ||| place shamt 20 ||| place rs1 15 ||| place funct3 12 ||| place rd 7 ||| place 0b0010011#7 0

/-- Layout S (R57). -/
def encodeS (funct3 : BitVec 3) (rs1 rs2 : RegIdx) (imm : Word) : Word :=
  place (imm.extractLsb' 5 7) 25 ||| place rs2 20 ||| place rs1 15 ||| place funct3 12 |||
    place (imm.extractLsb' 0 5) 7 ||| place 0b0100011#7 0

/-- Layout B (R58). -/
def encodeB (funct3 : BitVec 3) (rs1 rs2 : RegIdx) (imm : Word) : Word :=
  place (imm.extractLsb' 12 1) 31 ||| place (imm.extractLsb' 5 6) 25 ||| place rs2 20 ||| place rs1 15 |||
    place funct3 12 ||| place (imm.extractLsb' 1 4) 8 ||| place (imm.extractLsb' 11 1) 7 ||| place 0b1100011#7 0

/-- Layout U (R59). -/
def encodeU (opcode : BitVec 7) (rd : RegIdx) (imm : Word) : Word :=
  place (imm.extractLsb' 12 20) 12 ||| place rd 7 ||| place opcode 0

/-- Layout J (R60). -/
def encodeJ (rd : RegIdx) (imm : Word) : Word :=
  place (imm.extractLsb' 20 1) 31 ||| place (imm.extractLsb' 1 10) 21 ||| place (imm.extractLsb' 11 1) 20 |||
    place (imm.extractLsb' 12 8) 12 ||| place rd 7 ||| place 0b1101111#7 0

/-- The word of a well-formed instruction (R55 to R60 with the codes of R67). -/
def Instr.encode : Instr → Word
  | .lui rd imm => encodeU 0b0110111#7 rd imm
  | .auipc rd imm => encodeU 0b0010111#7 rd imm
  | .jal rd imm => encodeJ rd imm
  | .jalr rd rs1 imm => encodeI 0b1100111#7 0b000#3 rd rs1 imm
  | .beq rs1 rs2 imm => encodeB 0b000#3 rs1 rs2 imm
  | .bne rs1 rs2 imm => encodeB 0b001#3 rs1 rs2 imm
  | .blt rs1 rs2 imm => encodeB 0b100#3 rs1 rs2 imm
  | .bge rs1 rs2 imm => encodeB 0b101#3 rs1 rs2 imm
  | .bltu rs1 rs2 imm => encodeB 0b110#3 rs1 rs2 imm
  | .bgeu rs1 rs2 imm => encodeB 0b111#3 rs1 rs2 imm
  | .lb rd rs1 imm => encodeI 0b0000011#7 0b000#3 rd rs1 imm
  | .lh rd rs1 imm => encodeI 0b0000011#7 0b001#3 rd rs1 imm
  | .lw rd rs1 imm => encodeI 0b0000011#7 0b010#3 rd rs1 imm
  | .lbu rd rs1 imm => encodeI 0b0000011#7 0b100#3 rd rs1 imm
  | .lhu rd rs1 imm => encodeI 0b0000011#7 0b101#3 rd rs1 imm
  | .sb rs1 rs2 imm => encodeS 0b000#3 rs1 rs2 imm
  | .sh rs1 rs2 imm => encodeS 0b001#3 rs1 rs2 imm
  | .sw rs1 rs2 imm => encodeS 0b010#3 rs1 rs2 imm
  | .addi rd rs1 imm => encodeI 0b0010011#7 0b000#3 rd rs1 imm
  | .slti rd rs1 imm => encodeI 0b0010011#7 0b010#3 rd rs1 imm
  | .sltiu rd rs1 imm => encodeI 0b0010011#7 0b011#3 rd rs1 imm
  | .xori rd rs1 imm => encodeI 0b0010011#7 0b100#3 rd rs1 imm
  | .ori rd rs1 imm => encodeI 0b0010011#7 0b110#3 rd rs1 imm
  | .andi rd rs1 imm => encodeI 0b0010011#7 0b111#3 rd rs1 imm
  | .slli rd rs1 shamt => encodeShift 0b0000000#7 0b001#3 rd rs1 shamt
  | .srli rd rs1 shamt => encodeShift 0b0000000#7 0b101#3 rd rs1 shamt
  | .srai rd rs1 shamt => encodeShift 0b0100000#7 0b101#3 rd rs1 shamt
  | .add rd rs1 rs2 => encodeR 0b0000000#7 0b000#3 rd rs1 rs2
  | .sub rd rs1 rs2 => encodeR 0b0100000#7 0b000#3 rd rs1 rs2
  | .sll rd rs1 rs2 => encodeR 0b0000000#7 0b001#3 rd rs1 rs2
  | .slt rd rs1 rs2 => encodeR 0b0000000#7 0b010#3 rd rs1 rs2
  | .sltu rd rs1 rs2 => encodeR 0b0000000#7 0b011#3 rd rs1 rs2
  | .xor rd rs1 rs2 => encodeR 0b0000000#7 0b100#3 rd rs1 rs2
  | .srl rd rs1 rs2 => encodeR 0b0000000#7 0b101#3 rd rs1 rs2
  | .sra rd rs1 rs2 => encodeR 0b0100000#7 0b101#3 rd rs1 rs2
  | .or rd rs1 rs2 => encodeR 0b0000000#7 0b110#3 rd rs1 rs2
  | .and rd rs1 rs2 => encodeR 0b0000000#7 0b111#3 rd rs1 rs2

/-- The bytes of the instruction in ascending address order (R52). -/
def Instr.bytes (i : Instr) : List Byte := bytesOfWord i.encode

/-- The `match` column of the instruction's row of R67. -/
def Instr.rowMatch : Instr → Word
  | .lui _ _ => 0x00000037#32
  | .auipc _ _ => 0x00000017#32
  | .jal _ _ => 0x0000006F#32
  | .jalr _ _ _ => 0x00000067#32
  | .beq _ _ _ => 0x00000063#32
  | .bne _ _ _ => 0x00001063#32
  | .blt _ _ _ => 0x00004063#32
  | .bge _ _ _ => 0x00005063#32
  | .bltu _ _ _ => 0x00006063#32
  | .bgeu _ _ _ => 0x00007063#32
  | .lb _ _ _ => 0x00000003#32
  | .lh _ _ _ => 0x00001003#32
  | .lw _ _ _ => 0x00002003#32
  | .lbu _ _ _ => 0x00004003#32
  | .lhu _ _ _ => 0x00005003#32
  | .sb _ _ _ => 0x00000023#32
  | .sh _ _ _ => 0x00001023#32
  | .sw _ _ _ => 0x00002023#32
  | .addi _ _ _ => 0x00000013#32
  | .slti _ _ _ => 0x00002013#32
  | .sltiu _ _ _ => 0x00003013#32
  | .xori _ _ _ => 0x00004013#32
  | .ori _ _ _ => 0x00006013#32
  | .andi _ _ _ => 0x00007013#32
  | .slli _ _ _ => 0x00001013#32
  | .srli _ _ _ => 0x00005013#32
  | .srai _ _ _ => 0x40005013#32
  | .add _ _ _ => 0x00000033#32
  | .sub _ _ _ => 0x40000033#32
  | .sll _ _ _ => 0x00001033#32
  | .slt _ _ _ => 0x00002033#32
  | .sltu _ _ _ => 0x00003033#32
  | .xor _ _ _ => 0x00004033#32
  | .srl _ _ _ => 0x00005033#32
  | .sra _ _ _ => 0x40005033#32
  | .or _ _ _ => 0x00006033#32
  | .and _ _ _ => 0x00007033#32

/-- The `mask` column of the instruction's row of R67. -/
def Instr.rowMask : Instr → Word
  | .lui _ _ | .auipc _ _ | .jal _ _ => 0x0000007F#32
  | .jalr _ _ _ | .beq _ _ _ | .bne _ _ _ | .blt _ _ _ | .bge _ _ _ | .bltu _ _ _ | .bgeu _ _ _ => 0x0000707F#32
  | .lb _ _ _ | .lh _ _ _ | .lw _ _ _ | .lbu _ _ _ | .lhu _ _ _ | .sb _ _ _ | .sh _ _ _ | .sw _ _ _ => 0x0000707F#32
  | .addi _ _ _ | .slti _ _ _ | .sltiu _ _ _ | .xori _ _ _ | .ori _ _ _ | .andi _ _ _ => 0x0000707F#32
  | .slli _ _ _ | .srli _ _ _ | .srai _ _ _ => 0xFE00707F#32
  | .add _ _ _ | .sub _ _ _ | .sll _ _ _ | .slt _ _ _ | .sltu _ _ _ | .xor _ _ _ | .srl _ _ _ | .sra _ _ _
  | .or _ _ _ | .and _ _ _ => 0xFE00707F#32

end Sys2Proof
end

