-- ==== Sys2Proof/Config.lean ====
section
/-! DEFINITION. The parameters of the hardware (R7) at the values `State.reset` takes for them. The spec leaves
`MEM_LEN` and `MEM_INIT` open; every statement about all states holds whatever they are, since the length of memory
is held in the state. No value of this hardware is left undefined, so there is no free value here. -/

namespace Sys2Proof.Config

/-- `MEM_LEN` of `State.reset`: the largest length R7 and R30 allow. DESIGN CHOICE (log entry 2): the spec gives none.
Unsafe for claims about runs from `State.reset`. -/
def memLen : Nat := 4294967296

/-- The bound of R7 on `MEM_LEN`: 2^32 bytes. -/
def maxMemLen : Nat := 4294967296

/-- What a byte inside memory reads as when the list of cells does not hold it. DESIGN CHOICE (log entry 3): at
`State.reset` this makes `MEM_INIT` all zeros. Unsafe for claims about runs from `State.reset`. -/
def unlistedByte : Byte := 0x00#8

/-- `RESET_PC`, at its default of R7 and R163 (log entry 4). -/
def resetPc : Word := 0x00000000#32

end Sys2Proof.Config
end

