-- ==== Sys2Proof/Machine/State.lean ====
section
/-! DEFINITION. All the state the spec gives the hart (the table at the head of spec/10_state.md), as plain data,
and its value after reset (R163). -/

namespace Sys2Proof.Machine

/-- `run_state` (R19). -/
inductive RunState where
  | running
  | halted
deriving DecidableEq, Repr

/-- `halt_cause` (R20, R145). -/
inductive HaltCause where
  /-- the hart is Running -/
  | none
  /-- the normal end, R149 -/
  | endOfProgram
  /-- R146 -/
  | illegalInstruction
  /-- R147 -/
  | outOfBounds
  /-- R148 -/
  | fetchMisaligned
deriving DecidableEq, Repr

/-- Memory (R27, R29): a length fixed at construction and the bytes below it. The bytes are a list of (address, byte)
pairs in the canonical form `Memory.wf` states; a byte below `size` that is not listed is `Config.unlistedByte`. -/
structure Memory where
  /-- `MEM_LEN` -/
  size : Nat
  /-- the listed bytes -/
  cells : List Host.Cell
deriving DecidableEq, Repr

/-- Addresses rise strictly from `lo`, lie below `size`, and no byte is the one an unlisted address reads as. -/
def Memory.cellsOk (size : Nat) : Nat → List Host.Cell → Bool
  | _, [] => true
  | lo, (a, b) :: rest =>
    decide (lo ≤ a) && decide (a < size) && decide (b ≠ Config.unlistedByte) && Memory.cellsOk size (a + 1) rest

/-- The canonical form, and the bound of R7 on `MEM_LEN`. Equal memories are then equal data. -/
def Memory.wf (m : Memory) : Bool := decide (m.size ≤ Config.maxMemLen) && Memory.cellsOk m.size 0 m.cells

/-- The complete state of the hart. -/
structure State where
  /-- `x1` to `x31`, `x<i>` at position `i - 1` (R4, R10); `x0` is a constant and is not stored (R11) -/
  regs : Vector Word 31
  /-- the program counter (R16) -/
  pc : Word
  /-- `mem` with its length `MEM_LEN` (R27, R29) -/
  mem : Memory
  /-- `run_state` (R19) -/
  runState : RunState
  /-- `halt_cause` (R20) -/
  haltCause : HaltCause
  /-- `halt_info` (R21) -/
  haltInfo : Word
deriving DecidableEq, Repr

/-- The host's outcome `fault`: no constructor, because the spec gives the whole state after every fault of this
hardware (R151: run_state Halted and the halt record written), so each is a next state (log entry 1). Safe. -/
inductive Fault where
deriving DecidableEq, Repr

/-- The host's outcome `refused`. -/
inductive Refusal where
  /-- Raised by an arm of `exec` whose instruction has no meaning yet; no arm raises it in this model. Safe. -/
  | notModelled (mnemonic : String)
deriving DecidableEq, Repr

/-- What a step or an instruction answers. -/
abbrev Result := Host.Outcome State Fault Refusal

/-- `Reset(MEM_INIT, MEM_LEN, RESET_PC)` (R163): `mem` holds `MEM_INIT` and its length. -/
def State.construct (mem : Memory) (resetPc : Word) : State :=
  { regs := Vector.replicate 31 0x00000000#32, pc := resetPc, mem := mem,
    runState := .running, haltCause := .none, haltInfo := 0x00000000#32 }

/-- The hart right after reset (R163), with the parameters at the values of `Config` (log entries 2, 3, 4). -/
def State.reset : State := State.construct { size := Config.memLen, cells := [] } Config.resetPc

end Sys2Proof.Machine
end

