-- ==== Sys2Proof/Machine/Ops.lean ====
section
/-! DEFINITION. The shared operations: register reads and writes, the memory port, raising a fault, the normal end,
and reset with a given image. -/

namespace Sys2Proof.Machine

/-! ### Registers and pc -/

/-- Register read `x[i]` (R12): 0 for index 0, the stored value otherwise. -/
def State.reg (s : State) (i : RegIdx) : Word :=
  if h : i = 0#5 then 0x00000000#32
  else s.regs[i.toNat - 1]'(by have := i.isLt; omega)

/-- Register write `x[i] <- v` (R13): nothing for index 0. -/
def State.setReg (s : State) (i : RegIdx) (v : Word) : State :=
  if h : i = 0#5 then s
  else { s with regs := s.regs.set (i.toNat - 1) v (by have := i.isLt; omega) }

/-- `pc <- t` (R17). -/
def State.setPc (s : State) (t : Word) : State := { s with pc := t }

/-- The memory after a store. -/
def State.setMem (s : State) (m : Memory) : State := { s with mem := m }

/-- `pc <- pc + 4` (R17). -/
def State.advance (s : State) : State := s.setPc (s.pc + 4#32)

/-- `x[rd] <- v; pc <- pc + 4`, the end of every arithmetic, upper-immediate and load instruction. -/
def State.writeResult (s : State) (rd : RegIdx) (v : Word) : State := (s.setReg rd v).advance

/-! ### The bytes of memory -/

/-- The byte a list of cells holds at an address, or what an unlisted address reads as. -/
def cellAt (a : Nat) : List Host.Cell → Byte
  | [] => Config.unlistedByte
  | (k, b) :: rest => if k = a then b else cellAt a rest

/-- The cells after a byte is stored, in canonical form: storing the unlisted value removes the entry. -/
def cellStore (a : Nat) (v : Byte) : List Host.Cell → List Host.Cell
  | [] => if v = Config.unlistedByte then [] else [(a, v)]
  | (k, b) :: rest =>
    if k < a then (k, b) :: cellStore a v rest
    else if k = a then (if v = Config.unlistedByte then rest else (a, v) :: rest)
    else (if v = Config.unlistedByte then (k, b) :: rest else (a, v) :: (k, b) :: rest)

/-- `mem[a]` (R29). -/
def Memory.readByte (m : Memory) (a : Nat) : Byte := cellAt a m.cells

/-- `mem[a] <- b` (R32). -/
def Memory.writeByte (m : Memory) (a : Nat) (b : Byte) : Memory := { m with cells := cellStore a b m.cells }

/-- The `n` bytes from `a` as one little-endian value: byte `k` of the value is `mem[a + k]` (R31, R35). -/
def Memory.readBytes (m : Memory) (a : Nat) : (n : Nat) → BitVec (8 * n)
  | 0 => 0#0
  | n + 1 => m.readBytes (a + 1) n ++ m.readByte a

/-- Stores the low `n` bytes of `v` from `a` up, the least significant first (R32, R35). -/
def Memory.writeBytes {k : Nat} (m : Memory) (a : Nat) : Nat → BitVec k → Memory
  | 0, _ => m
  | n + 1, v => (m.writeByte a (v.setWidth 8)).writeBytes (a + 1) n (v >>> 8)

/-- The four bytes from `a` as a word (R52). -/
def Memory.wordAt (m : Memory) (a : Nat) : Word := (m.readBytes a 4).setWidth 32

/-! ### Faults -/

/-- The three faults with what each carries (R145 to R148). -/
inductive Raised where
  /-- IllegalInstruction(raw), R146 -/
  | illegalInstruction (raw : Word)
  /-- OutOfBounds(addr), R147 -/
  | outOfBounds (addr : Word)
  /-- FetchMisaligned(pc), R148 -/
  | fetchMisaligned (pc : Word)
deriving DecidableEq, Repr

/-- The `halt_cause` of a fault (R145). -/
def Raised.cause : Raised → HaltCause
  | .illegalInstruction _ => .illegalInstruction
  | .outOfBounds _ => .outOfBounds
  | .fetchMisaligned _ => .fetchMisaligned

/-- The `halt_info` of a fault (R21). -/
def Raised.info : Raised → Word
  | .illegalInstruction raw => raw
  | .outOfBounds addr => addr
  | .fetchMisaligned pc => pc

/-- The numeric code of a halt cause (R20, R145). -/
def HaltCause.code : HaltCause → Nat
  | .none => 0
  | .endOfProgram => 1
  | .illegalInstruction => 2
  | .outOfBounds => 3
  | .fetchMisaligned => 4

/-- The hart becomes Halted with a cause and an info; registers, memory and pc keep their values (R151, R154). -/
def State.halt (s : State) (cause : HaltCause) (info : Word) : State :=
  { s with runState := .halted, haltCause := cause, haltInfo := info }

/-- `raise F(info)`: the one way a fault is taken (R151). Nothing is saved but the halt record, control goes nowhere
(R154), and there is no return from it (R155). -/
def State.raise (s : State) (r : Raised) : State := s.halt r.cause r.info

/-- The normal end (R149): a halt with cause EndOfProgram and the pc. -/
def State.endProgram (s : State) : State := s.halt .endOfProgram s.pc

/-! ### The memory port -/

/-- The access widths of the memory port (R31). -/
inductive Width where
  /-- Byte -/
  | byte
  /-- HalfWord -/
  | halfWord
  /-- Word -/
  | word
  /-- DoubleWord; no instruction uses it (log entry 12) -/
  | doubleWord
  /-- QuadWord; no instruction uses it (log entry 12) -/
  | quadWord
deriving DecidableEq, Repr

/-- The number of bytes of a width (R31). -/
def Width.bytes : Width → Nat
  | .byte => 1
  | .halfWord => 2
  | .word => 4
  | .doubleWord => 8
  | .quadWord => 16

/-- The access lies inside memory; computed on natural numbers, with no wrap at 2^32 (R31, R32, R33). -/
def Memory.inBounds (m : Memory) (addr : Word) (w : Width) : Bool := decide (addr.toNat + w.bytes ≤ m.size)

/-- `MemRead(addr, n)` (R31). -/
def Memory.read (m : Memory) (addr : Word) (w : Width) : Except Raised (BitVec (8 * w.bytes)) :=
  if m.inBounds addr w then .ok (m.readBytes addr.toNat w.bytes) else .error (.outOfBounds addr)

/-- `MemWrite(addr, n, v)` (R32, R34): all bytes or none. -/
def Memory.write {k : Nat} (m : Memory) (addr : Word) (w : Width) (v : BitVec k) : Except Raised Memory :=
  if m.inBounds addr w then .ok (m.writeBytes addr.toNat w.bytes v) else .error (.outOfBounds addr)

/-! ### Reset with an image -/

/-- The cells of a sequence of bytes placed from address `a` up. -/
def cellsOfBytes (a : Nat) : List Byte → List Host.Cell
  | [] => []
  | b :: rest =>
    if b = Config.unlistedByte then cellsOfBytes (a + 1) rest else (a, b) :: cellsOfBytes (a + 1) rest

/-- The memory whose content is `MEM_INIT` and whose length is the number of its bytes (R163). -/
def Memory.ofBytes (memInit : List Byte) : Memory := { size := memInit.length, cells := cellsOfBytes 0 memInit }

/-- `Reset(MEM_INIT, MEM_LEN, RESET_PC)` with `MEM_LEN` the number of bytes of `MEM_INIT` (R163). -/
def resetWith (memInit : List Byte) (resetPc : Word) : State := State.construct (Memory.ofBytes memInit) resetPc

/-- The memory made long enough to hold addresses below `n`; used only to place an instruction for the host's probe
(log entry 7). No step changes the length of memory (R29). -/
def Memory.growTo (m : Memory) (n : Nat) : Memory := { m with size := max m.size n }

end Sys2Proof.Machine
end

