-- ==== Sys2Proof/Machine/Flags.lean ====
section
/-! DEFINITION. Comparisons. The hardware has no flags and no condition codes (R24, R95): a comparison writes 0 or 1
to `rd` or decides a branch within the same instruction. -/

namespace Sys2Proof.Machine

/-- `s(a) < s(b)`, exact, not taken from a wrapped difference (R81). -/
def lessSigned (a b : Word) : Bool := decide (a.toInt < b.toInt)

/-- `u(a) < u(b)` (R82). -/
def lessUnsigned (a b : Word) : Bool := decide (a.toNat < b.toNat)

/-- The 32-bit value 0x00000001 or 0x00000000 of a comparison (R81, decision D19). -/
def boolWord (c : Bool) : Word := if c then 0x00000001#32 else 0x00000000#32

/-- The six comparison kinds of the branch comparator (R90). -/
inductive BranchKind where
  | eq
  | ne
  | lt
  | ge
  | ltu
  | geu
deriving DecidableEq, Repr

/-- The comparison kind a branch's `funct3` selects; 010 and 011 select none (R90). -/
def BranchKind.ofFunct3 (funct3 : BitVec 3) : Option BranchKind :=
  match funct3 with
  | 0b000#3 => some .eq
  | 0b001#3 => some .ne
  | 0b100#3 => some .lt
  | 0b101#3 => some .ge
  | 0b110#3 => some .ltu
  | 0b111#3 => some .geu
  | _ => none

/-- `BranchTaken` (R90). -/
def branchTaken (k : BranchKind) (a b : Word) : Bool :=
  match k with
  | .eq => decide (a = b)
  | .ne => decide (a ≠ b)
  | .lt => lessSigned a b
  | .ge => !lessSigned a b
  | .ltu => lessUnsigned a b
  | .geu => !lessUnsigned a b

end Sys2Proof.Machine
end

