-- ==== Sys2Proof/Machine/Alu.lean ====
section
/-! DEFINITION. The integer ALU (R5, R77 to R88) and the selection of its operation (R89). It has no state, no carry
and no flags, and never faults. -/

namespace Sys2Proof.Machine

/-- The ten operations (R77). -/
inductive AluOp where
  | add
  | sub
  | sll
  | slt
  | sltu
  | xor
  | srl
  | sra
  | or
  | and
deriving DecidableEq, Repr

/-- The shift amount: the low 5 bits of `b` (R88). -/
def shiftAmount (b : Word) : Nat := (b.extractLsb' 0 5).toNat

/-- `ALU(op, a, b)` (R78 to R87). -/
def alu (op : AluOp) (a b : Word) : Word :=
  match op with
  | .add => a + b
  | .sub => a - b
  | .sll => a <<< shiftAmount b
  | .slt => boolWord (lessSigned a b)
  | .sltu => boolWord (lessUnsigned a b)
  | .xor => a ^^^ b
  | .srl => a >>> shiftAmount b
  | .sra => a.sshiftRight (shiftAmount b)
  | .or => a ||| b
  | .and => a &&& b

/-- The operation of a 4-bit `alu_op` code `{alt, funct3}` (R89). -/
def AluOp.ofCode (code : BitVec 4) : Option AluOp :=
  match code with
  | 0b0000#4 => some .add
  | 0b1000#4 => some .sub
  | 0b0001#4 => some .sll
  | 0b0010#4 => some .slt
  | 0b0011#4 => some .sltu
  | 0b0100#4 => some .xor
  | 0b0101#4 => some .srl
  | 0b1101#4 => some .sra
  | 0b0110#4 => some .or
  | 0b0111#4 => some .and
  | _ => none

/-- The `alu_op` code the decoded fields give (R89): `{funct7[5], funct3}` for OP; `{imm[10], funct3}` for OP-IMM with
`funct3` = 101, and `{0, funct3}` for OP-IMM otherwise; ADD for every other opcode that uses the ALU (R91). -/
def aluCodeOf (d : Decoded) : Option (BitVec 4) :=
  match d.opcode with
  | 0b0110011#7 => d.funct7.bind fun f7 => d.funct3.bind fun f3 => some ((f7.extractLsb' 5 1 ++ f3).setWidth 4)
  | 0b0010011#7 =>
    d.imm.bind fun imm => d.funct3.bind fun f3 =>
      if f3 = 0b101#3 then some ((imm.extractLsb' 10 1 ++ f3).setWidth 4)
      else some ((0#1 ++ f3).setWidth 4)
  | 0b0000011#7 => some 0b0000#4
  | 0b0100011#7 => some 0b0000#4
  | 0b0110111#7 => some 0b0000#4
  | 0b0010111#7 => some 0b0000#4
  | 0b1101111#7 => some 0b0000#4
  | 0b1100111#7 => some 0b0000#4
  | _ => none

end Sys2Proof.Machine
end

