-- ==== Sys2Proof/Machine/Operands.lean ====
section
/-! DEFINITION. Operand forms: effective addresses, jump and branch targets, the link address, the immediate shift
amount, and the extension of a loaded value. Every register is read from the state before the instruction (R14). -/

namespace Sys2Proof.Machine

/-- `ea = x[rs1] + imm`, modulo 2^32, the only addressing mode (R43). -/
def effectiveAddress (rs1 : RegIdx) (imm : Word) (s : State) : Word := s.reg rs1 + imm

/-- `pc + imm`: the target of JAL and of a branch taken, and the value of AUIPC (R118, R119, R122). -/
def pcRelative (imm : Word) (s : State) : Word := s.pc + imm

/-- `(x[rs1] + imm) & 0xFFFFFFFE`: the target of JALR (R120). -/
def jalrTarget (rs1 : RegIdx) (imm : Word) (s : State) : Word := (s.reg rs1 + imm) &&& 0xFFFFFFFE#32

/-- `pc + 4`: the link address (R119, R120). -/
def linkAddress (s : State) : Word := s.pc + 4#32

/-- The second ALU operand of an immediate shift; only its low 5 bits count (R88, R114). -/
def shamtOperand (shamt : BitVec 5) : Word := shamt.setWidth 32

/-- How a loaded value is extended to 32 bits (R129). -/
inductive Extension where
  /-- `sext` (R8) -/
  | sext
  /-- `zext` (R8) -/
  | zext
deriving DecidableEq, Repr

/-- `extend(v)` (R129). -/
def extend {n : Nat} (e : Extension) (v : BitVec n) : Word :=
  match e with
  | .sext => v.signExtend 32
  | .zext => v.setWidth 32

/-- The data access an instruction makes: its effective address and its width (R39). `none` for an instruction that
makes none (R30). -/
def dataAccess (i : Instr) (s : State) : Option (Word × Width) :=
  match i with
  | .lb _ rs1 imm | .lbu _ rs1 imm | .sb rs1 _ imm => some (effectiveAddress rs1 imm s, .byte)
  | .lh _ rs1 imm | .lhu _ rs1 imm | .sh rs1 _ imm => some (effectiveAddress rs1 imm s, .halfWord)
  | .lw _ rs1 imm | .sw rs1 _ imm => some (effectiveAddress rs1 imm s, .word)
  | .lui _ _ | .auipc _ _ | .jal _ _ | .jalr _ _ _ => none
  | .beq _ _ _ | .bne _ _ _ | .blt _ _ _ | .bge _ _ _ | .bltu _ _ _ | .bgeu _ _ _ => none
  | .addi _ _ _ | .slti _ _ _ | .sltiu _ _ _ | .xori _ _ _ | .ori _ _ _ | .andi _ _ _ => none
  | .slli _ _ _ | .srli _ _ _ | .srai _ _ _ => none
  | .add _ _ _ | .sub _ _ _ | .sll _ _ _ | .slt _ _ _ | .sltu _ _ _ | .xor _ _ _ | .srl _ _ _ | .sra _ _ _
  | .or _ _ _ | .and _ _ _ => none

end Sys2Proof.Machine
end

