-- ==== Sys2Proof/Machine/Branches.lean ====
section
/-! DEFINITION. Conditional branches (spec/45_branches.md, R122 to R128). The target is not checked (R122). -/

namespace Sys2Proof.Machine

/-- `if BranchTaken then pc <- pc + imm else pc <- pc + 4` (R122). -/
def branch (k : BranchKind) (rs1 rs2 : RegIdx) (imm : Word) (s : State) : State :=
  if branchTaken k (s.reg rs1) (s.reg rs2) then s.setPc (pcRelative imm s) else s.advance

/-- BEQ (R122, R123). -/
def execBeq (rs1 rs2 : RegIdx) (imm : Word) (s : State) : Result := .next (branch .eq rs1 rs2 imm s)

/-- BNE (R122, R124). -/
def execBne (rs1 rs2 : RegIdx) (imm : Word) (s : State) : Result := .next (branch .ne rs1 rs2 imm s)

/-- BLT (R122, R125). -/
def execBlt (rs1 rs2 : RegIdx) (imm : Word) (s : State) : Result := .next (branch .lt rs1 rs2 imm s)

/-- BGE (R122, R126). -/
def execBge (rs1 rs2 : RegIdx) (imm : Word) (s : State) : Result := .next (branch .ge rs1 rs2 imm s)

/-- BLTU (R122, R127). -/
def execBltu (rs1 rs2 : RegIdx) (imm : Word) (s : State) : Result := .next (branch .ltu rs1 rs2 imm s)

/-- BGEU (R122, R128). -/
def execBgeu (rs1 rs2 : RegIdx) (imm : Word) (s : State) : Result := .next (branch .geu rs1 rs2 imm s)

end Sys2Proof.Machine
end

