-- ==== Sys2Proof/Machine/Jumps.lean ====
section
/-! DEFINITION. Jumps (spec/44_jumps.md, R119 to R121). Neither checks its target (R121). -/

namespace Sys2Proof.Machine

/-- `x[rd] <- pc + 4; pc <- target`, the target computed before `rd` is written (R14, R119, R120). -/
def jumpAndLink (rd : RegIdx) (target : Word) (s : State) : State := (s.setReg rd (linkAddress s)).setPc target

/-- JAL (R119). -/
def execJal (rd : RegIdx) (imm : Word) (s : State) : Result := .next (jumpAndLink rd (pcRelative imm s) s)

/-- JALR (R120). -/
def execJalr (rd rs1 : RegIdx) (imm : Word) (s : State) : Result := .next (jumpAndLink rd (jalrTarget rs1 imm s) s)

end Sys2Proof.Machine
end

