-- ==== Sys2Proof/Machine/Loads.lean ====
section
/-! DEFINITION. Loads (spec/46_loads.md, R129 to R134). Any effective address inside memory is legal (R38). -/

namespace Sys2Proof.Machine

/-- `v = MemRead(ea, n); x[rd] <- extend(v); pc <- pc + 4`, or OutOfBounds(ea) (R129, R147). -/
def load (w : Width) (e : Extension) (rd rs1 : RegIdx) (imm : Word) (s : State) : State :=
  match s.mem.read (effectiveAddress rs1 imm s) w with
  | .ok v => s.writeResult rd (extend e v)
  | .error r => s.raise r

/-- LB (R129, R130). -/
def execLb (rd rs1 : RegIdx) (imm : Word) (s : State) : Result := .next (load .byte .sext rd rs1 imm s)

/-- LH (R129, R131). -/
def execLh (rd rs1 : RegIdx) (imm : Word) (s : State) : Result := .next (load .halfWord .sext rd rs1 imm s)

/-- LW (R129, R132): the value fills the register and no extension is needed. -/
def execLw (rd rs1 : RegIdx) (imm : Word) (s : State) : Result := .next (load .word .zext rd rs1 imm s)

/-- LBU (R129, R133). -/
def execLbu (rd rs1 : RegIdx) (imm : Word) (s : State) : Result := .next (load .byte .zext rd rs1 imm s)

/-- LHU (R129, R134). -/
def execLhu (rd rs1 : RegIdx) (imm : Word) (s : State) : Result := .next (load .halfWord .zext rd rs1 imm s)

end Sys2Proof.Machine
end

