-- ==== Sys2Proof/Machine/OpImm.lean ====
section
/-! DEFINITION. Register-immediate arithmetic, opcode OP-IMM (spec/42_op_imm.md, R107 to R116). -/

namespace Sys2Proof.Machine

/-- `x[rd] <- ALU(op, x[rs1], imm); pc <- pc + 4` (R107). -/
def opImm (op : AluOp) (rd rs1 : RegIdx) (imm : Word) (s : State) : State :=
  s.writeResult rd (alu op (s.reg rs1) imm)

/-- ADDI (R107, R108). -/
def execAddi (rd rs1 : RegIdx) (imm : Word) (s : State) : Result := .next (opImm .add rd rs1 imm s)

/-- SLTI (R107, R109). -/
def execSlti (rd rs1 : RegIdx) (imm : Word) (s : State) : Result := .next (opImm .slt rd rs1 imm s)

/-- SLTIU (R107, R110). -/
def execSltiu (rd rs1 : RegIdx) (imm : Word) (s : State) : Result := .next (opImm .sltu rd rs1 imm s)

/-- XORI (R107, R111). -/
def execXori (rd rs1 : RegIdx) (imm : Word) (s : State) : Result := .next (opImm .xor rd rs1 imm s)

/-- ORI (R107, R112). -/
def execOri (rd rs1 : RegIdx) (imm : Word) (s : State) : Result := .next (opImm .or rd rs1 imm s)

/-- ANDI (R107, R113). -/
def execAndi (rd rs1 : RegIdx) (imm : Word) (s : State) : Result := .next (opImm .and rd rs1 imm s)

/-- SLLI (R107, R114). -/
def execSlli (rd rs1 : RegIdx) (shamt : BitVec 5) (s : State) : Result :=
  .next (opImm .sll rd rs1 (shamtOperand shamt) s)

/-- SRLI (R107, R115). -/
def execSrli (rd rs1 : RegIdx) (shamt : BitVec 5) (s : State) : Result :=
  .next (opImm .srl rd rs1 (shamtOperand shamt) s)

/-- SRAI (R107, R116). -/
def execSrai (rd rs1 : RegIdx) (shamt : BitVec 5) (s : State) : Result :=
  .next (opImm .sra rd rs1 (shamtOperand shamt) s)

end Sys2Proof.Machine
end

