-- ==== Sys2Proof/Machine/OpReg.lean ====
section
/-! DEFINITION. Register-register arithmetic, opcode OP (spec/41_op_reg.md, R96 to R106). -/

namespace Sys2Proof.Machine

/-- `x[rd] <- ALU(op, x[rs1], x[rs2]); pc <- pc + 4` (R96). -/
def opReg (op : AluOp) (rd rs1 rs2 : RegIdx) (s : State) : State :=
  s.writeResult rd (alu op (s.reg rs1) (s.reg rs2))

/-- ADD (R96, R97). -/
def execAdd (rd rs1 rs2 : RegIdx) (s : State) : Result := .next (opReg .add rd rs1 rs2 s)

/-- SUB (R96, R98). -/
def execSub (rd rs1 rs2 : RegIdx) (s : State) : Result := .next (opReg .sub rd rs1 rs2 s)

/-- SLL (R96, R99). -/
def execSll (rd rs1 rs2 : RegIdx) (s : State) : Result := .next (opReg .sll rd rs1 rs2 s)

/-- SLT (R96, R100). -/
def execSlt (rd rs1 rs2 : RegIdx) (s : State) : Result := .next (opReg .slt rd rs1 rs2 s)

/-- SLTU (R96, R101). -/
def execSltu (rd rs1 rs2 : RegIdx) (s : State) : Result := .next (opReg .sltu rd rs1 rs2 s)

/-- XOR (R96, R102). -/
def execXor (rd rs1 rs2 : RegIdx) (s : State) : Result := .next (opReg .xor rd rs1 rs2 s)

/-- SRL (R96, R103). -/
def execSrl (rd rs1 rs2 : RegIdx) (s : State) : Result := .next (opReg .srl rd rs1 rs2 s)

/-- SRA (R96, R104). -/
def execSra (rd rs1 rs2 : RegIdx) (s : State) : Result := .next (opReg .sra rd rs1 rs2 s)

/-- OR (R96, R105). -/
def execOr (rd rs1 rs2 : RegIdx) (s : State) : Result := .next (opReg .or rd rs1 rs2 s)

/-- AND (R96, R106). -/
def execAnd (rd rs1 rs2 : RegIdx) (s : State) : Result := .next (opReg .and rd rs1 rs2 s)

end Sys2Proof.Machine
end

