-- ==== Sys2Proof/Machine/Stores.lean ====
section
/-! DEFINITION. Stores (spec/47_stores.md, R135 to R138). Any effective address inside memory is legal (R38). -/

namespace Sys2Proof.Machine

/-- `MemWrite(ea, n, x[rs2]); pc <- pc + 4`, or OutOfBounds(ea) with no byte written (R135, R147). -/
def store (w : Width) (rs1 rs2 : RegIdx) (imm : Word) (s : State) : State :=
  match s.mem.write (effectiveAddress rs1 imm s) w (s.reg rs2) with
  | .ok m => (s.setMem m).advance
  | .error r => s.raise r

/-- SB (R135, R136). -/
def execSb (rs1 rs2 : RegIdx) (imm : Word) (s : State) : Result := .next (store .byte rs1 rs2 imm s)

/-- SH (R135, R137). -/
def execSh (rs1 rs2 : RegIdx) (imm : Word) (s : State) : Result := .next (store .halfWord rs1 rs2 imm s)

/-- SW (R135, R138). -/
def execSw (rs1 rs2 : RegIdx) (imm : Word) (s : State) : Result := .next (store .word rs1 rs2 imm s)

end Sys2Proof.Machine
end

