-- ==== Sys2Proof/Machine/UpperImm.lean ====
section
/-! DEFINITION. Upper-immediate instructions (spec/43_upper_imm.md, R117, R118). -/

namespace Sys2Proof.Machine

/-- LUI (R117): the immediate is already the full 32-bit value (R59). -/
def execLui (rd : RegIdx) (imm : Word) (s : State) : Result := .next (s.writeResult rd imm)

/-- AUIPC (R118): the pc is the address of this instruction. -/
def execAuipc (rd : RegIdx) (imm : Word) (s : State) : Result := .next (s.writeResult rd (pcRelative imm s))

end Sys2Proof.Machine
end

