-- ==== Sys2Proof/Machine/Fetch.lean ====
section
/-! DEFINITION. Instruction fetch (R44, R45). -/

namespace Sys2Proof.Machine

/-- The three outcomes of `Fetch` (R44). -/
inductive FetchResult where
  /-- the normal end, R149 -/
  | endOfProgram
  /-- a fault, R151 -/
  | fault (r : Raised)
  /-- a decoded word whose opcode is mapped -/
  | instruction (d : Decoded)
deriving DecidableEq, Repr

/-- `Fetch()` with its four tests in order (R44, R153). The third test is the bounds test of the read itself. -/
def fetch (s : State) : FetchResult :=
  if s.mem.size ≤ s.pc.toNat then .endOfProgram
  else if s.pc.extractLsb' 0 2 ≠ 0b00#2 then .fault (.fetchMisaligned s.pc)
  else
    match s.mem.read s.pc .word with
    | .error r => .fault r
    | .ok v =>
      if (decodeFields (v.setWidth 32)).legal then .instruction (decodeFields (v.setWidth 32))
      else .fault (.illegalInstruction (v.setWidth 32))

end Sys2Proof.Machine
end

