-- ==== Sys2Proof/Machine/Execute.lean ====
section
/-! DEFINITION. `Execute(d)` (R68) and one `Step` of a Running hart (R23). -/

namespace Sys2Proof.Machine

/-- `Execute(d)` (R68): the instruction the fields select, or IllegalInstruction(d.raw) before anything is read (R69). -/
def execute (d : Decoded) (s : State) : Result :=
  match select d with
  | some i => exec i s
  | none => .next (s.raise (.illegalInstruction d.raw))

/-- A `Step` of a Running hart: `Fetch`, then `Execute` when it answered an instruction (R23). -/
def stepRunning (s : State) : Result :=
  match fetch s with
  | .endOfProgram => .next s.endProgram
  | .fault r => .next (s.raise r)
  | .instruction d => execute d s

end Sys2Proof.Machine
end

