-- ==== Sys2Proof/Machine/Step.lean ====
section
/-! DEFINITION. `Step`, the only action that changes state after reset (R23), and the placing of one instruction for
the host's probe. -/

namespace Sys2Proof.Machine

/-- `Step` (R23). A Step of a Halted hart changes nothing (R19, R155). -/
def step (s : State) : Host.Outcome State Fault Refusal :=
  match s.runState with
  | .halted => .next s
  | .running => stepRunning s

/-- `s` with the instruction whose bits are `w` stored where the next `Step` fetches, and with what that fetch needs:
a Running hart, a pc that is a multiple of 4 and a memory that holds the word (log entry 7). From `State.reset` only
the four bytes change. -/
def State.withFetchWord (s : State) (nbits w : Nat) : State :=
  { s with
    pc := s.pc &&& 0xFFFFFFFC#32
    mem := (s.mem.growTo ((s.pc &&& 0xFFFFFFFC#32).toNat + 4)).writeBytes (s.pc &&& 0xFFFFFFFC#32).toNat 4
      (tableWord nbits w)
    runState := .running
    haltCause := .none
    haltInfo := 0x00000000#32 }

end Sys2Proof.Machine
end

