-- ==== Sys2Proof/Safety.lean ====
section
/-! DEFINITION. What claims about runs are stated in: how a run ended, and the invariant every Step keeps. -/

namespace Sys2Proof.Machine

/-- A program "ends well" (R162): Halted with cause EndOfProgram. -/
def State.endedWell (s : State) : Bool := decide (s.runState = .halted) && decide (s.haltCause = .endOfProgram)

/-- An abnormal end (R162): Halted with code 2, 3 or 4. -/
def State.endedAbnormally (s : State) : Bool :=
  decide (s.runState = .halted) && (decide (s.haltCause = .illegalInstruction) ||
    decide (s.haltCause = .outOfBounds) || decide (s.haltCause = .fetchMisaligned))

/-- A run is safe so far: no fault has halted the hart. -/
def State.safe (s : State) : Bool := !s.endedAbnormally

/-- The word at the pc is a load or a store whose access of `n` bytes at `addr` passes the end of memory (R147). -/
def State.dataOutOfBounds (s : State) (addr : Word) : Prop :=
  ∃ i w, decode (s.mem.wordAt s.pc.toNat) = .ok i ∧ dataAccess i s = some (addr, w) ∧
    s.mem.size < addr.toNat + w.bytes

/-- The halt record tells what is so (R19 to R21, R145 to R149): a Running hart has cause None and info 0, and a
Halted hart has one of the four causes, with its condition met by the pc, the memory and the registers, and its info.
`Reset` and `Step` reach no other combination. -/
def State.haltRecordTrue (s : State) : Prop :=
  match s.runState, s.haltCause with
  | .running, .none => s.haltInfo = 0x00000000#32
  | .halted, .endOfProgram => s.haltInfo = s.pc ∧ s.mem.size ≤ s.pc.toNat
  | .halted, .fetchMisaligned => s.haltInfo = s.pc ∧ s.pc.toNat < s.mem.size ∧ s.pc.toNat % 4 ≠ 0
  | .halted, .illegalInstruction =>
    s.haltInfo = s.mem.wordAt s.pc.toNat ∧ s.pc.toNat % 4 = 0 ∧ s.pc.toNat + 4 ≤ s.mem.size ∧
      ∀ i, decode s.haltInfo ≠ .ok i
  | .halted, .outOfBounds =>
    s.pc.toNat % 4 = 0 ∧ s.pc.toNat < s.mem.size ∧
      ((s.haltInfo = s.pc ∧ s.mem.size < s.pc.toNat + 4) ∨
        (s.pc.toNat + 4 ≤ s.mem.size ∧ s.dataOutOfBounds s.haltInfo))
  | .running, .endOfProgram | .running, .illegalInstruction | .running, .outOfBounds
  | .running, .fetchMisaligned | .halted, .none => False

/-- The invariant of the machine: memory in canonical form with at most 2^32 bytes, and a true halt record. -/
def State.Inv (s : State) : Prop := s.mem.wf = true ∧ s.haltRecordTrue

end Sys2Proof.Machine
end

