-- ==== Sys2Proof/Certificates/Slice0/Obligations.lean ====
section
/-! DEFINITION. The statements about the model, each a proposition for the provers. The helpers at the head say what an
instruction or a Step has changed and that everything else is as it was. -/

namespace Sys2Proof.Claims

open Sys2Proof Sys2Proof.Machine

/-- Memory is byte for byte as it was, and of the same length. -/
def MemoryKept (s t : State) : Prop :=
  t.mem.size = s.mem.size ∧ ∀ a, t.mem.readByte a = s.mem.readByte a

/-- The run state and the halt record are as they were. -/
def RunKept (s t : State) : Prop :=
  t.runState = s.runState ∧ t.haltCause = s.haltCause ∧ t.haltInfo = s.haltInfo

/-- `rd` holds `v` (unless it is `x0`, which discards it), the pc is `next`, and nothing else has changed. -/
def Wrote (s t : State) (rd : RegIdx) (v next : Word) : Prop :=
  (∀ j, t.reg j = if j = rd ∧ j ≠ 0#5 then v else s.reg j) ∧ t.pc = next ∧ MemoryKept s t ∧ RunKept s t

/-- The pc is `next` and nothing else has changed. -/
def WentTo (s t : State) (next : Word) : Prop :=
  (∀ j, t.reg j = s.reg j) ∧ t.pc = next ∧ MemoryKept s t ∧ RunKept s t

/-- The `n` bytes from `addr` hold the low `n` bytes of `v`, the least significant first; every byte outside them is as
it was; the pc is `next`; and nothing else has changed. -/
def Stored (s t : State) (addr : Word) (n : Nat) (v next : Word) : Prop :=
  (∀ k, k < n → t.mem.readByte (addr.toNat + k) = v.extractLsb' (8 * k) 8) ∧
    (∀ a, a < addr.toNat ∨ addr.toNat + n ≤ a → t.mem.readByte a = s.mem.readByte a) ∧
    t.mem.size = s.mem.size ∧ (∀ j, t.reg j = s.reg j) ∧ t.pc = next ∧ RunKept s t

/-- The hart is Halted with this cause and info; registers, memory and pc are as they were. -/
def HaltedWith (s t : State) (cause : HaltCause) (info : Word) : Prop :=
  t.runState = .halted ∧ t.haltCause = cause ∧ t.haltInfo = info ∧
    t.pc = s.pc ∧ (∀ j, t.reg j = s.reg j) ∧ MemoryKept s t

/-- A Running hart whose pc is a multiple of 4 with its four bytes inside memory, where they hold the word `raw`. -/
def Fetches (s : State) (raw : Word) : Prop :=
  s.runState = .running ∧ s.pc.toNat % 4 = 0 ∧ s.pc.toNat + 4 ≤ s.mem.size ∧ s.mem.wordAt s.pc.toNat = raw

/-- The decoded fields of the word choose the ALU operation `op` (R89), and `holds` is so of it. -/
def ChoosesAlu (raw : Word) (op : AluOp) (holds : AluOp → Prop) : Prop :=
  ∃ code, aluCodeOf (decodeFields raw) = some code ∧ AluOp.ofCode code = some op ∧ holds op

/-- One row of opcode OP: its words decode to it, and it computes `f` of its two registers. -/
def OpRow (code : Word) (mk : RegIdx → RegIdx → RegIdx → Instr) (f : Word → Word → Word) : Prop :=
  (∀ raw, raw &&& 0xFE00707F#32 = code → decode raw = .ok (mk (rdOf raw) (rs1Of raw) (rs2Of raw))) ∧
    ∀ rd rs1 rs2 s, ∃ t, exec (mk rd rs1 rs2) s = .next t ∧
      Wrote s t rd (f (s.reg rs1) (s.reg rs2)) (s.pc + 4#32)

/-- One row of opcode OP-IMM other than a shift. -/
def OpImmRow (code : Word) (mk : RegIdx → RegIdx → Word → Instr) (f : Word → Word → Word) : Prop :=
  (∀ raw, raw &&& 0x0000707F#32 = code →
      decode raw = .ok (mk (rdOf raw) (rs1Of raw) ((raw.extractLsb' 20 12).signExtend 32))) ∧
    ∀ rd rs1 imm s, ∃ t, exec (mk rd rs1 imm) s = .next t ∧ Wrote s t rd (f (s.reg rs1) imm) (s.pc + 4#32)

/-- One immediate shift. -/
def ShiftRow (code : Word) (mk : RegIdx → RegIdx → BitVec 5 → Instr) (f : Word → Nat → Word) : Prop :=
  (∀ raw, raw &&& 0xFE00707F#32 = code → decode raw = .ok (mk (rdOf raw) (rs1Of raw) (raw.extractLsb' 20 5))) ∧
    ∀ rd rs1 shamt s, ∃ t, exec (mk rd rs1 shamt) s = .next t ∧
      Wrote s t rd (f (s.reg rs1) shamt.toNat) (s.pc + 4#32)

/-- One conditional branch: taken exactly when `cond` holds of its two registers. -/
def BranchRow (code : Word) (mk : RegIdx → RegIdx → Word → Instr) (cond : Word → Word → Prop) : Prop :=
  (∀ raw, raw &&& 0x0000707F#32 = code →
      decode raw = .ok (mk (rs1Of raw) (rs2Of raw)
        ((raw.extractLsb' 31 1 ++ raw.extractLsb' 7 1 ++ raw.extractLsb' 25 6 ++ raw.extractLsb' 8 4 ++
          0#1).signExtend 32))) ∧
    ∀ rs1 rs2 imm s, ∃ t, exec (mk rs1 rs2 imm) s = .next t ∧
      (cond (s.reg rs1) (s.reg rs2) → WentTo s t (s.pc + imm)) ∧
      (¬cond (s.reg rs1) (s.reg rs2) → WentTo s t (s.pc + 4#32))

/-- One load of `n` bytes: it completes with `ext` of the little-endian value of its bytes when they are inside memory,
and else halts the hart with OutOfBounds. -/
def LoadRow (code : Word) (mk : RegIdx → RegIdx → Word → Instr) (n : Nat) (ext : BitVec (8 * n) → Word) :
    Prop :=
  (∀ raw, raw &&& 0x0000707F#32 = code →
      decode raw = .ok (mk (rdOf raw) (rs1Of raw) ((raw.extractLsb' 20 12).signExtend 32))) ∧
    (∀ rd rs1 imm s, (s.reg rs1 + imm).toNat + n ≤ s.mem.size →
      ∃ t v, exec (mk rd rs1 imm) s = .next t ∧
        (∀ k, k < n → v.extractLsb' (8 * k) 8 = s.mem.readByte ((s.reg rs1 + imm).toNat + k)) ∧
        Wrote s t rd (ext v) (s.pc + 4#32)) ∧
    ∀ rd rs1 imm s, s.mem.size < (s.reg rs1 + imm).toNat + n →
      ∃ t, exec (mk rd rs1 imm) s = .next t ∧ HaltedWith s t .outOfBounds (s.reg rs1 + imm)

/-- One store of `n` bytes: it completes when they are inside memory, and else halts the hart with OutOfBounds and
writes no byte. -/
def StoreRow (code : Word) (mk : RegIdx → RegIdx → Word → Instr) (n : Nat) : Prop :=
  (∀ raw, raw &&& 0x0000707F#32 = code →
      decode raw = .ok (mk (rs1Of raw) (rs2Of raw)
        ((raw.extractLsb' 25 7 ++ raw.extractLsb' 7 5).signExtend 32))) ∧
    (∀ rs1 rs2 imm s, s.mem.wf = true → (s.reg rs1 + imm).toNat + n ≤ s.mem.size →
      ∃ t, exec (mk rs1 rs2 imm) s = .next t ∧ Stored s t (s.reg rs1 + imm) n (s.reg rs2) (s.pc + 4#32)) ∧
    ∀ rs1 rs2 imm s, s.mem.size < (s.reg rs1 + imm).toNat + n →
      ∃ t, exec (mk rs1 rs2 imm) s = .next t ∧ HaltedWith s t .outOfBounds (s.reg rs1 + imm)

end Sys2Proof.Claims

open Sys2Proof Sys2Proof.Machine Sys2Proof.Claims

/-! ### Encoding and decoding -/

/-- Headline: decoding the bytes of a well-formed instruction gives it back and leaves the bytes after it, for every
instruction and every operand its encoding admits. -/
def Obligations.DecodeAfterEncode : Prop :=
  ∀ (i : Instr) (rest : List Byte), i.wellFormed = true → decodeBytes (i.bytes ++ rest) = .ok (i, rest)

/-- Headline: a word that decodes is the encoding of the well-formed instruction it decodes to, so no bit of a legal
word is ignored. -/
def Obligations.EncodeAfterDecode : Prop :=
  ∀ (raw : Word) (i : Instr), decode raw = .ok i → i.wellFormed = true ∧ i.encode = raw

/-- R67: a word is the instruction of a row exactly when its masked bits are the row's; no two rows match one word. -/
def Obligations.DecodeFollowsTable : Prop :=
  (∀ (raw : Word) (i : Instr), decode raw = .ok i → raw &&& i.rowMask = i.rowMatch) ∧
    (∀ raw (i : Instr), raw &&& i.rowMask = i.rowMatch →
      ∃ j, decode raw = .ok j ∧ j.rowMatch = i.rowMatch ∧ j.rowMask = i.rowMask) ∧
    ∀ (raw : Word) (i j : Instr), raw &&& i.rowMask = i.rowMatch → raw &&& j.rowMask = j.rowMatch →
      i.rowMatch = j.rowMatch ∧ i.rowMask = j.rowMask

/-- R62: which fields each layout delivers, from which bits, and that the others are absent whatever the word holds
there. -/
def Obligations.FieldsByLayout : Prop :=
  ∀ raw : Word,
    ((decodeFields raw).layout = some .R →
      (decodeFields raw).rd = some (raw.extractLsb' 7 5) ∧ (decodeFields raw).rs1 = some (raw.extractLsb' 15 5) ∧
      (decodeFields raw).rs2 = some (raw.extractLsb' 20 5) ∧ (decodeFields raw).funct3 = some (raw.extractLsb' 12 3) ∧
      (decodeFields raw).funct7 = some (raw.extractLsb' 25 7) ∧ (decodeFields raw).imm = none) ∧
    ((decodeFields raw).layout = some .I →
      (decodeFields raw).rd = some (raw.extractLsb' 7 5) ∧ (decodeFields raw).rs1 = some (raw.extractLsb' 15 5) ∧
      (decodeFields raw).rs2 = none ∧ (decodeFields raw).funct3 = some (raw.extractLsb' 12 3) ∧
      (decodeFields raw).funct7 = none ∧ (decodeFields raw).imm = some (immI raw)) ∧
    ((decodeFields raw).layout = some .S →
      (decodeFields raw).rd = none ∧ (decodeFields raw).rs1 = some (raw.extractLsb' 15 5) ∧
      (decodeFields raw).rs2 = some (raw.extractLsb' 20 5) ∧ (decodeFields raw).funct3 = some (raw.extractLsb' 12 3) ∧
      (decodeFields raw).funct7 = none ∧ (decodeFields raw).imm = some (immS raw)) ∧
    ((decodeFields raw).layout = some .B →
      (decodeFields raw).rd = none ∧ (decodeFields raw).rs1 = some (raw.extractLsb' 15 5) ∧
      (decodeFields raw).rs2 = some (raw.extractLsb' 20 5) ∧ (decodeFields raw).funct3 = some (raw.extractLsb' 12 3) ∧
      (decodeFields raw).funct7 = none ∧ (decodeFields raw).imm = some (immB raw)) ∧
    ((decodeFields raw).layout = some .U →
      (decodeFields raw).rd = some (raw.extractLsb' 7 5) ∧ (decodeFields raw).rs1 = none ∧
      (decodeFields raw).rs2 = none ∧ (decodeFields raw).funct3 = none ∧
      (decodeFields raw).funct7 = none ∧ (decodeFields raw).imm = some (immU raw)) ∧
    ((decodeFields raw).layout = some .J →
      (decodeFields raw).rd = some (raw.extractLsb' 7 5) ∧ (decodeFields raw).rs1 = none ∧
      (decodeFields raw).rs2 = none ∧ (decodeFields raw).funct3 = none ∧
      (decodeFields raw).funct7 = none ∧ (decodeFields raw).imm = some (immJ raw))

/-- R63: the immediate multiplexer bit by bit. The five columns of the rule's table, and layout R has none. -/
def Obligations.ImmediateBits : Prop :=
  ∀ (raw : Word) (k : Nat), k < 32 →
    (immI raw).getLsbD k = (if 11 ≤ k then raw.getLsbD 31 else raw.getLsbD (k + 20)) ∧
    (immS raw).getLsbD k =
      (if 11 ≤ k then raw.getLsbD 31 else if 5 ≤ k then raw.getLsbD (k + 20) else raw.getLsbD (k + 7)) ∧
    (immB raw).getLsbD k =
      (if 12 ≤ k then raw.getLsbD 31 else if k = 11 then raw.getLsbD 7 else if 5 ≤ k then raw.getLsbD (k + 20)
       else if 1 ≤ k then raw.getLsbD (k + 7) else false) ∧
    (immU raw).getLsbD k = (if 12 ≤ k then raw.getLsbD k else false) ∧
    (immJ raw).getLsbD k =
      (if 20 ≤ k then raw.getLsbD 31 else if 12 ≤ k then raw.getLsbD k else if k = 11 then raw.getLsbD 20
       else if 1 ≤ k then raw.getLsbD (k + 20) else false) ∧
    ((decodeFields raw).imm =
      (decodeFields raw).layout.bind fun l =>
        match l with
        | .R => none
        | .I => some (immI raw)
        | .S => some (immS raw)
        | .B => some (immB raw)
        | .U => some (immU raw)
        | .J => some (immJ raw))

/-- R61 and R65: nine opcode values select a layout; a word with any other is not legal, carries its raw word and no
field, and decodes to no instruction. -/
def Obligations.OpcodeMap : Prop :=
  layoutOf 0x33#7 = some .R ∧ layoutOf 0x13#7 = some .I ∧ layoutOf 0x03#7 = some .I ∧ layoutOf 0x67#7 = some .I ∧
    layoutOf 0x23#7 = some .S ∧ layoutOf 0x63#7 = some .B ∧ layoutOf 0x37#7 = some .U ∧ layoutOf 0x17#7 = some .U ∧
    layoutOf 0x6F#7 = some .J ∧
    ∀ raw : Word,
      raw.extractLsb' 0 7 ∉ [0x33#7, 0x13#7, 0x03#7, 0x67#7, 0x23#7, 0x63#7, 0x37#7, 0x17#7, 0x6F#7] →
      (decodeFields raw).legal = false ∧ (decodeFields raw).raw = raw ∧ (decodeFields raw).layout = none ∧
        (decodeFields raw).rd = none ∧ (decodeFields raw).rs1 = none ∧ (decodeFields raw).rs2 = none ∧
        (decodeFields raw).funct3 = none ∧ (decodeFields raw).funct7 = none ∧ (decodeFields raw).imm = none ∧
        decode raw = .error (.unmappedOpcode raw)

/-- R69: the words with a mapped opcode that select no instruction, all of them and no other; a Step that fetches one
halts with IllegalInstruction and the word, and changes nothing else. -/
def Obligations.IllegalFunctionCodes : Prop :=
  (∀ raw : Word, decode raw = .error (.unknownFunction raw) ↔
    (opcodeOf raw = 0b1100111#7 ∧ funct3Of raw ≠ 0b000#3) ∨
    (opcodeOf raw = 0b1100011#7 ∧ (funct3Of raw = 0b010#3 ∨ funct3Of raw = 0b011#3)) ∨
    (opcodeOf raw = 0b0000011#7 ∧ (funct3Of raw = 0b011#3 ∨ funct3Of raw = 0b110#3 ∨ funct3Of raw = 0b111#3)) ∨
    (opcodeOf raw = 0b0100011#7 ∧ 3 ≤ (funct3Of raw).toNat) ∨
    (opcodeOf raw = 0b0010011#7 ∧
      ((funct3Of raw = 0b001#3 ∧ funct7Of raw ≠ 0b0000000#7) ∨
        (funct3Of raw = 0b101#3 ∧ funct7Of raw ≠ 0b0000000#7 ∧ funct7Of raw ≠ 0b0100000#7))) ∨
    (opcodeOf raw = 0b0110011#7 ∧
      ((funct7Of raw = 0b0100000#7 ∧ funct3Of raw ≠ 0b000#3 ∧ funct3Of raw ≠ 0b101#3) ∨
        (funct7Of raw ≠ 0b0000000#7 ∧ funct7Of raw ≠ 0b0100000#7)))) ∧
    ∀ (s : State) (raw : Word), Fetches s raw → decode raw = .error (.unknownFunction raw) →
      ∃ t, step s = .next t ∧ HaltedWith s t .illegalInstruction raw

/-- R146 with R72: a word that matches no row halts the hart with IllegalInstruction and the word as fetched, the pc
staying at it; the all-zero and all-ones words are such words. -/
def Obligations.IllegalWordHalts : Prop :=
  (∀ (s : State) (raw : Word), Fetches s raw → (∀ i : Instr, raw &&& i.rowMask ≠ i.rowMatch) →
    ∃ t, step s = .next t ∧ HaltedWith s t .illegalInstruction raw) ∧
    ∀ s, Fetches s 0x00000000#32 ∨ Fetches s 0xFFFFFFFF#32 →
      ∃ t, step s = .next t ∧ HaltedWith s t .illegalInstruction (s.mem.wordAt s.pc.toNat)

/-- R139 to R144: the words of FENCE, SYSTEM, the M extension, the other extensions, the compressed and custom opcodes
and the 64-bit forms each halt the hart with IllegalInstruction and the word, and change nothing else. -/
def Obligations.AbsentInstructionsHalt : Prop :=
  ∀ (s : State) (raw : Word), Fetches s raw →
    (opcodeOf raw = 0b0001111#7 ∨
      opcodeOf raw = 0b1110011#7 ∨
      (opcodeOf raw = 0b0110011#7 ∧ funct7Of raw = 0b0000001#7) ∨
      opcodeOf raw ∈ [0b0101111#7, 0b0000111#7, 0b0100111#7, 0b1010011#7, 0b1000011#7, 0b1000111#7, 0b1001011#7,
        0b1001111#7, 0b1010111#7, 0b0001011#7, 0b0101011#7, 0b1011011#7, 0b1111011#7] ∨
      raw.extractLsb' 0 2 ≠ 0b11#2 ∨
      (opcodeOf raw = 0b0000011#7 ∧ (funct3Of raw = 0b110#3 ∨ funct3Of raw = 0b011#3)) ∨
      (opcodeOf raw = 0b0100011#7 ∧ funct3Of raw = 0b011#3) ∨
      opcodeOf raw = 0b0011011#7 ∨ opcodeOf raw = 0b0111011#7 ∨
      (opcodeOf raw = 0b0010011#7 ∧ (funct3Of raw = 0b001#3 ∨ funct3Of raw = 0b101#3) ∧
        raw.extractLsb' 25 1 = 1#1)) →
    ∃ t, step s = .next t ∧ HaltedWith s t .illegalInstruction raw

/-- Sanity: words of spec/95_test_vectors.md section 2.1 and 2.11, one or more of each family. -/
def Obligations.WorkedWordsDecode : Prop :=
  decode 0xDEADC2B7#32 = .ok (.lui 5#5 0xDEADC000#32) ∧
    decode 0x7FFFF0EF#32 = .ok (.jal 1#5 0x000FFFFE#32) ∧
    decode 0x004280E7#32 = .ok (.jalr 1#5 5#5 4#32) ∧
    decode 0xFE2088E3#32 = .ok (.beq 1#5 2#5 0xFFFFFFF0#32) ∧
    decode 0xFFFFAF83#32 = .ok (.lw 31#5 31#5 0xFFFFFFFF#32) ∧
    decode 0xFE20AE23#32 = .ok (.sw 1#5 2#5 0xFFFFFFFC#32) ∧
    decode 0x4040D193#32 = .ok (.srai 3#5 1#5 4#5) ∧
    decode 0x41DF5FB3#32 = .ok (.sra 31#5 30#5 29#5) ∧
    decode 0x00000073#32 = .error (.unmappedOpcode 0x00000073#32) ∧
    decode 0x022081B3#32 = .error (.unknownFunction 0x022081B3#32)

/-! ### Registers -/

/-- R12 and R13: after any sequence of register writes a read of `x0` is 0 and a read of any other register is the
value last written to it, or what it held before (0 after reset); pc, memory and run state are untouched. -/
def Obligations.RegisterReadsLastWrite : Prop :=
  (∀ (s : State) (ws : List (RegIdx × Word)) (j : RegIdx),
    (ws.foldl (fun s w => s.setReg w.1 w.2) s).reg j =
      if j = 0#5 then 0x00000000#32
      else ((ws.reverse.find? fun w => w.1 == j).map Prod.snd).getD (s.reg j)) ∧
    (∀ (s : State) (ws : List (RegIdx × Word)),
      (ws.foldl (fun s w => s.setReg w.1 w.2) s).pc = s.pc ∧
        MemoryKept s (ws.foldl (fun s w => s.setReg w.1 w.2) s) ∧
        RunKept s (ws.foldl (fun s w => s.setReg w.1 w.2) s)) ∧
    ∀ (memInit : List Byte) (resetPc : Word) (j : RegIdx), (resetWith memInit resetPc).reg j = 0x00000000#32

/-- R14: a Step writes at most one register. -/
def Obligations.StepWritesOneRegister : Prop :=
  ∀ (s t : State), step s = .next t → ∃ rd, ∀ j, j ≠ rd → t.reg j = s.reg j

/-! ### The memory port -/

/-- R31: a read inside memory answers the little-endian value of its bytes, for each of the five widths; a read that
passes the end answers OutOfBounds with its address. -/
def Obligations.MemReadRule : Prop :=
  (Width.byte.bytes = 1 ∧ Width.halfWord.bytes = 2 ∧ Width.word.bytes = 4 ∧ Width.doubleWord.bytes = 8 ∧
    Width.quadWord.bytes = 16) ∧
    (∀ (m : Memory) (addr : Word) (w : Width), addr.toNat + w.bytes ≤ m.size →
      ∃ v, m.read addr w = .ok v ∧ ∀ k, k < w.bytes → v.extractLsb' (8 * k) 8 = m.readByte (addr.toNat + k)) ∧
    ∀ (m : Memory) (addr : Word) (w : Width), m.size < addr.toNat + w.bytes →
      m.read addr w = .error (.outOfBounds addr)

/-- R32: a write inside memory stores the low bytes of the value, the least significant at the lowest address, changes
no byte outside the access and keeps the memory's length and canonical form; a write that passes the end answers
OutOfBounds and no memory. -/
def Obligations.MemWriteRule : Prop :=
  (∀ (m : Memory) (addr : Word) (w : Width) (k : Nat) (v : BitVec k), m.wf = true → 8 * w.bytes ≤ k →
    addr.toNat + w.bytes ≤ m.size →
      ∃ m', m.write addr w v = .ok m' ∧ m'.size = m.size ∧ m'.wf = true ∧
        (∀ j, j < w.bytes → m'.readByte (addr.toNat + j) = v.extractLsb' (8 * j) 8) ∧
        ∀ a, a < addr.toNat ∨ addr.toNat + w.bytes ≤ a → m'.readByte a = m.readByte a) ∧
    ∀ (m : Memory) (addr : Word) (w : Width) (k : Nat) (v : BitVec k), m.size < addr.toNat + w.bytes →
      m.write addr w v = .error (.outOfBounds addr)

/-- R37: a write followed by a read of the same address and width answers the value truncated to the width. -/
def Obligations.MemoryRoundTrip : Prop :=
  ∀ (m : Memory) (addr : Word) (w : Width) (k : Nat) (v : BitVec k), m.wf = true → 8 * w.bytes ≤ k →
    addr.toNat + w.bytes ≤ m.size →
      ∃ m', m.write addr w v = .ok m' ∧ m'.read addr w = .ok (v.setWidth (8 * w.bytes))

/-- R33: a read and a write answer OutOfBounds exactly when the sum of address and width, a natural number, is greater
than the length, and that sum is never reduced modulo 2^32: not when it passes 2^32, and not when it is 2^32 itself
and the memory is shorter, as for a word at 0xFFFFFFFC. -/
def Obligations.BoundsTestDoesNotWrap : Prop :=
  (∀ (m : Memory) (addr : Word) (w : Width) (k : Nat) (v : BitVec k),
    (m.read addr w = .error (.outOfBounds addr) ↔ m.size < addr.toNat + w.bytes) ∧
      (m.write addr w v = .error (.outOfBounds addr) ↔ m.size < addr.toNat + w.bytes)) ∧
    (∀ (m : Memory) (addr : Word) (w : Width) (v : Word), m.size ≤ 4294967296 → 4294967296 < addr.toNat + w.bytes →
      m.read addr w = .error (.outOfBounds addr) ∧ m.write addr w v = .error (.outOfBounds addr)) ∧
    (∀ (m : Memory), m.size ≤ 4294967296 → m.read 0xFFFFFFFE#32 .word = .error (.outOfBounds 0xFFFFFFFE#32)) ∧
    ∀ (m : Memory) (v : Word), m.size < 4294967296 →
      m.read 0xFFFFFFFC#32 .word = .error (.outOfBounds 0xFFFFFFFC#32) ∧
        m.write 0xFFFFFFFC#32 .word v = .error (.outOfBounds 0xFFFFFFFC#32)

/-- R36: accesses of different widths see the same bytes, and a narrow write replaces only its own bytes. -/
def Obligations.WidthsShareBytes : Prop :=
  ∀ (m : Memory) (a : Word), m.wf = true → a.toNat + 4 ≤ m.size →
    ∃ m', m.write a .word 0xDEADBEEF#32 = .ok m' ∧
      m'.read a .byte = .ok 0xEF#8 ∧ m'.read (a + 1#32) .byte = .ok 0xBE#8 ∧
      m'.read (a + 2#32) .byte = .ok 0xAD#8 ∧ m'.read (a + 3#32) .byte = .ok 0xDE#8 ∧
      m'.read a .halfWord = .ok 0xBEEF#16 ∧ m'.read (a + 2#32) .halfWord = .ok 0xDEAD#16 ∧
      m'.read (a + 1#32) .halfWord = .ok 0xADBE#16 ∧
      ∀ b : Byte, ∃ m'', m'.write (a + 1#32) .byte b = .ok m'' ∧
        m''.read a .word = .ok ((0xDEAD#16 ++ b ++ 0xEF#8).setWidth 32)

/-- R43: the effective address is the sum modulo 2^32, and it is the address of every load and store. -/
def Obligations.EffectiveAddressWraps : Prop :=
  ∀ (rs1 r : RegIdx) (imm : Word) (s : State),
    (effectiveAddress rs1 imm s).toNat = ((s.reg rs1).toNat + imm.toNat) % 4294967296 ∧
      dataAccess (.lb r rs1 imm) s = some (effectiveAddress rs1 imm s, .byte) ∧
      dataAccess (.lbu r rs1 imm) s = some (effectiveAddress rs1 imm s, .byte) ∧
      dataAccess (.lh r rs1 imm) s = some (effectiveAddress rs1 imm s, .halfWord) ∧
      dataAccess (.lhu r rs1 imm) s = some (effectiveAddress rs1 imm s, .halfWord) ∧
      dataAccess (.lw r rs1 imm) s = some (effectiveAddress rs1 imm s, .word) ∧
      dataAccess (.sb rs1 r imm) s = some (effectiveAddress rs1 imm s, .byte) ∧
      dataAccess (.sh rs1 r imm) s = some (effectiveAddress rs1 imm s, .halfWord) ∧
      dataAccess (.sw rs1 r imm) s = some (effectiveAddress rs1 imm s, .word)

/-! ### The ALU and the branch comparator -/

/-- R78, R79, R83, R86, R87: sums and differences modulo 2^32 whichever way the operands are read, and the bitwise
operations bit by bit. -/
def Obligations.AluArithmeticAndLogic : Prop :=
  ∀ a b : Word,
    (alu .add a b).toNat = (a.toNat + b.toNat) % 4294967296 ∧
      (alu .add a b).toInt = (a.toInt + b.toInt).bmod 4294967296 ∧
      ((alu .sub a b).toNat : Int) = ((a.toNat : Int) - (b.toNat : Int)) % 4294967296 ∧
      alu .sub a b = a + ~~~b + 1#32 ∧
      ∀ k, k < 32 →
        (alu .xor a b).getLsbD k = (a.getLsbD k != b.getLsbD k) ∧
        (alu .or a b).getLsbD k = (a.getLsbD k || b.getLsbD k) ∧
        (alu .and a b).getLsbD k = (a.getLsbD k && b.getLsbD k)

/-- R80, R84, R85, R88: the three shifts bit by bit with the amount the low 5 bits of `b`, the upper bits of `b`
ignored, and the arithmetic shift the floor of the quotient by the power of two. -/
def Obligations.AluShifts : Prop :=
  ∀ a b : Word,
    (∀ k, k < 32 →
      (alu .sll a b).getLsbD k = (if b.toNat % 32 ≤ k then a.getLsbD (k - b.toNat % 32) else false) ∧
      (alu .srl a b).getLsbD k = (if k + b.toNat % 32 ≤ 31 then a.getLsbD (k + b.toNat % 32) else false) ∧
      (alu .sra a b).getLsbD k = (if k + b.toNat % 32 ≤ 31 then a.getLsbD (k + b.toNat % 32) else a.getLsbD 31)) ∧
      (alu .sra a b).toInt = a.toInt / 2 ^ (b.toNat % 32) ∧
      (∀ b' : Word, b'.toNat % 32 = b.toNat % 32 →
        alu .sll a b' = alu .sll a b ∧ alu .srl a b' = alu .srl a b ∧ alu .sra a b' = alu .sra a b) ∧
      (b.toNat % 32 = 0 → alu .sll a b = a ∧ alu .srl a b = a ∧ alu .sra a b = a)

/-- R81, R82: set-less-than is 1 or 0, signed or unsigned, and exact. -/
def Obligations.AluComparisons : Prop :=
  ∀ a b : Word,
    alu .slt a b = (if a.toInt < b.toInt then 0x00000001#32 else 0x00000000#32) ∧
      alu .sltu a b = (if a.toNat < b.toNat then 0x00000001#32 else 0x00000000#32)

/-- R90: the comparison kind each `funct3` selects, its condition, and its form in terms of the ALU. -/
def Obligations.BranchComparator : Prop :=
  BranchKind.ofFunct3 0b010#3 = none ∧ BranchKind.ofFunct3 0b011#3 = none ∧
    ∀ a b : Word,
      (∃ k, BranchKind.ofFunct3 0b000#3 = some k ∧ (branchTaken k a b = true ↔ a = b) ∧
        (branchTaken k a b = true ↔ alu .xor a b = 0#32)) ∧
      (∃ k, BranchKind.ofFunct3 0b001#3 = some k ∧ (branchTaken k a b = true ↔ a ≠ b) ∧
        (branchTaken k a b = true ↔ alu .xor a b ≠ 0#32)) ∧
      (∃ k, BranchKind.ofFunct3 0b100#3 = some k ∧ (branchTaken k a b = true ↔ a.toInt < b.toInt) ∧
        (branchTaken k a b = true ↔ alu .slt a b = 1#32)) ∧
      (∃ k, BranchKind.ofFunct3 0b101#3 = some k ∧ (branchTaken k a b = true ↔ a.toInt ≥ b.toInt) ∧
        (branchTaken k a b = true ↔ alu .slt a b = 0#32)) ∧
      (∃ k, BranchKind.ofFunct3 0b110#3 = some k ∧ (branchTaken k a b = true ↔ a.toNat < b.toNat) ∧
        (branchTaken k a b = true ↔ alu .sltu a b = 1#32)) ∧
      (∃ k, BranchKind.ofFunct3 0b111#3 = some k ∧ (branchTaken k a b = true ↔ a.toNat ≥ b.toNat) ∧
        (branchTaken k a b = true ↔ alu .sltu a b = 0#32))

/-- R89 and R91, group by group: the ALU operation chosen from the decoded fields, on the operands of the group, gives
what the instruction computes. OP, OP-IMM, LUI and AUIPC write it to `rd`; it is the effective address of a load or a
store, the new pc of JAL, and with bit 0 cleared the new pc of JALR, both of which write `pc + 4` to `rd`. It is ADD
for all but OP and OP-IMM. A branch uses the comparator in its place and takes `pc + imm` or `pc + 4`. -/
def Obligations.AluSelection : Prop :=
  ∀ (raw : Word) (i : Instr), decode raw = .ok i →
    (opcodeOf raw = 0b0110011#7 → ∃ op, ChoosesAlu raw op fun op =>
      ∀ s, ∃ t, exec i s = .next t ∧
        Wrote s t (rdOf raw) (alu op (s.reg (rs1Of raw)) (s.reg (rs2Of raw))) (s.pc + 4#32)) ∧
    (opcodeOf raw = 0b0010011#7 → ∃ op, ChoosesAlu raw op fun op =>
      ∀ s, ∃ t, exec i s = .next t ∧
        Wrote s t (rdOf raw) (alu op (s.reg (rs1Of raw)) (immI raw)) (s.pc + 4#32)) ∧
    (opcodeOf raw = 0b0000011#7 → ChoosesAlu raw .add fun op =>
      ∀ s, ∃ w, dataAccess i s = some (alu op (s.reg (rs1Of raw)) (immI raw), w)) ∧
    (opcodeOf raw = 0b0100011#7 → ChoosesAlu raw .add fun op =>
      ∀ s, ∃ w, dataAccess i s = some (alu op (s.reg (rs1Of raw)) (immS raw), w)) ∧
    (opcodeOf raw = 0b0110111#7 → ChoosesAlu raw .add fun op =>
      ∀ s, ∃ t, exec i s = .next t ∧ Wrote s t (rdOf raw) (alu op 0#32 (immU raw)) (s.pc + 4#32)) ∧
    (opcodeOf raw = 0b0010111#7 → ChoosesAlu raw .add fun op =>
      ∀ s, ∃ t, exec i s = .next t ∧ Wrote s t (rdOf raw) (alu op s.pc (immU raw)) (s.pc + 4#32)) ∧
    (opcodeOf raw = 0b1101111#7 → ChoosesAlu raw .add fun op =>
      ∀ s, ∃ t, exec i s = .next t ∧ Wrote s t (rdOf raw) (s.pc + 4#32) (alu op s.pc (immJ raw))) ∧
    (opcodeOf raw = 0b1100111#7 → ChoosesAlu raw .add fun op =>
      ∀ s, ∃ t, exec i s = .next t ∧
        Wrote s t (rdOf raw) (s.pc + 4#32) (alu op (s.reg (rs1Of raw)) (immI raw) &&& 0xFFFFFFFE#32)) ∧
    (opcodeOf raw = 0b1100011#7 → ∃ kind, BranchKind.ofFunct3 (funct3Of raw) = some kind ∧
      ∀ s, ∃ t, exec i s = .next t ∧
        WentTo s t
          (if branchTaken kind (s.reg (rs1Of raw)) (s.reg (rs2Of raw)) then s.pc + immB raw else s.pc + 4#32))

/-! ### The instructions, family by family: encoding, result, completion and frame -/

/-- R97 to R106. -/
def Obligations.RegisterRegisterInstructions : Prop :=
  OpRow 0x00000033#32 .add (fun a b => a + b) ∧
    OpRow 0x40000033#32 .sub (fun a b => a - b) ∧
    OpRow 0x00001033#32 .sll (fun a b => a <<< (b.toNat % 32)) ∧
    OpRow 0x00002033#32 .slt (fun a b => if a.toInt < b.toInt then 1#32 else 0#32) ∧
    OpRow 0x00003033#32 .sltu (fun a b => if a.toNat < b.toNat then 1#32 else 0#32) ∧
    OpRow 0x00004033#32 .xor (fun a b => a ^^^ b) ∧
    OpRow 0x00005033#32 .srl (fun a b => a >>> (b.toNat % 32)) ∧
    OpRow 0x40005033#32 .sra (fun a b => a.sshiftRight (b.toNat % 32)) ∧
    OpRow 0x00006033#32 .or (fun a b => a ||| b) ∧
    OpRow 0x00007033#32 .and (fun a b => a &&& b)

/-- R108 to R116, the rejected shift words among them. -/
def Obligations.RegisterImmediateInstructions : Prop :=
  OpImmRow 0x00000013#32 .addi (fun a imm => a + imm) ∧
    OpImmRow 0x00002013#32 .slti (fun a imm => if a.toInt < imm.toInt then 1#32 else 0#32) ∧
    OpImmRow 0x00003013#32 .sltiu (fun a imm => if a.toNat < imm.toNat then 1#32 else 0#32) ∧
    OpImmRow 0x00004013#32 .xori (fun a imm => a ^^^ imm) ∧
    OpImmRow 0x00006013#32 .ori (fun a imm => a ||| imm) ∧
    OpImmRow 0x00007013#32 .andi (fun a imm => a &&& imm) ∧
    ShiftRow 0x00001013#32 .slli (fun a n => a <<< n) ∧
    ShiftRow 0x00005013#32 .srli (fun a n => a >>> n) ∧
    ShiftRow 0x40005013#32 .srai (fun a n => a.sshiftRight n) ∧
    ∀ (s : State) (raw : Word), Fetches s raw → opcodeOf raw = 0b0010011#7 →
      ((funct3Of raw = 0b001#3 ∧ raw.extractLsb' 25 7 ≠ 0b0000000#7) ∨
        (funct3Of raw = 0b101#3 ∧ raw.extractLsb' 25 7 ≠ 0b0000000#7 ∧ raw.extractLsb' 25 7 ≠ 0b0100000#7)) →
      ∃ t, step s = .next t ∧ HaltedWith s t .illegalInstruction raw

/-- R117 and R118. -/
def Obligations.UpperImmediateInstructions : Prop :=
  (∀ raw : Word, raw &&& 0x0000007F#32 = 0x00000037#32 →
    decode raw = .ok (.lui (rdOf raw) (raw &&& 0xFFFFF000#32))) ∧
    (∀ raw : Word, raw &&& 0x0000007F#32 = 0x00000017#32 →
      decode raw = .ok (.auipc (rdOf raw) (raw &&& 0xFFFFF000#32))) ∧
    (∀ rd imm s, ∃ t, exec (.lui rd imm) s = .next t ∧ Wrote s t rd imm (s.pc + 4#32)) ∧
    ∀ rd imm s, ∃ t, exec (.auipc rd imm) s = .next t ∧ Wrote s t rd (s.pc + imm) (s.pc + 4#32)

/-- R119 and R120: the link is the address after the jump, the target of JALR is taken from the register before the
link is written and has bit 0 cleared; the words of opcode JALR with another funct3 are illegal. -/
def Obligations.JumpInstructions : Prop :=
  (∀ raw : Word, raw &&& 0x0000007F#32 = 0x0000006F#32 →
    decode raw = .ok (.jal (rdOf raw)
      ((raw.extractLsb' 31 1 ++ raw.extractLsb' 12 8 ++ raw.extractLsb' 20 1 ++ raw.extractLsb' 21 10 ++
        0#1).signExtend 32))) ∧
    (∀ raw : Word, raw &&& 0x0000707F#32 = 0x00000067#32 →
      decode raw = .ok (.jalr (rdOf raw) (rs1Of raw) ((raw.extractLsb' 20 12).signExtend 32))) ∧
    (∀ rd imm s, ∃ t, exec (.jal rd imm) s = .next t ∧ Wrote s t rd (s.pc + 4#32) (s.pc + imm)) ∧
    (∀ rd rs1 imm s, ∃ t, exec (.jalr rd rs1 imm) s = .next t ∧
      Wrote s t rd (s.pc + 4#32) ((s.reg rs1 + imm) &&& 0xFFFFFFFE#32)) ∧
    ∀ (s : State) (raw : Word), Fetches s raw → opcodeOf raw = 0b1100111#7 → funct3Of raw ≠ 0b000#3 →
      ∃ t, step s = .next t ∧ HaltedWith s t .illegalInstruction raw

/-- R122 to R128; the words of opcode BRANCH with funct3 010 and 011 are illegal. -/
def Obligations.BranchInstructions : Prop :=
  BranchRow 0x00000063#32 .beq (fun a b => a = b) ∧
    BranchRow 0x00001063#32 .bne (fun a b => a ≠ b) ∧
    BranchRow 0x00004063#32 .blt (fun a b => a.toInt < b.toInt) ∧
    BranchRow 0x00005063#32 .bge (fun a b => a.toInt ≥ b.toInt) ∧
    BranchRow 0x00006063#32 .bltu (fun a b => a.toNat < b.toNat) ∧
    BranchRow 0x00007063#32 .bgeu (fun a b => a.toNat ≥ b.toNat) ∧
    ∀ (s : State) (raw : Word), Fetches s raw → opcodeOf raw = 0b1100011#7 →
      (funct3Of raw = 0b010#3 ∨ funct3Of raw = 0b011#3) →
      ∃ t, step s = .next t ∧ HaltedWith s t .illegalInstruction raw

/-- R129 to R134; the words of opcode LOAD with funct3 011, 110 and 111 are illegal. -/
def Obligations.LoadInstructions : Prop :=
  LoadRow 0x00000003#32 .lb 1 (fun v => v.signExtend 32) ∧
    LoadRow 0x00001003#32 .lh 2 (fun v => v.signExtend 32) ∧
    LoadRow 0x00002003#32 .lw 4 (fun v => v.setWidth 32) ∧
    LoadRow 0x00004003#32 .lbu 1 (fun v => v.setWidth 32) ∧
    LoadRow 0x00005003#32 .lhu 2 (fun v => v.setWidth 32) ∧
    ∀ (s : State) (raw : Word), Fetches s raw → opcodeOf raw = 0b0000011#7 →
      (funct3Of raw = 0b011#3 ∨ funct3Of raw = 0b110#3 ∨ funct3Of raw = 0b111#3) →
      ∃ t, step s = .next t ∧ HaltedWith s t .illegalInstruction raw

/-- R135 to R138; the words of opcode STORE with funct3 011 to 111 are illegal. -/
def Obligations.StoreInstructions : Prop :=
  StoreRow 0x00000023#32 .sb 1 ∧
    StoreRow 0x00001023#32 .sh 2 ∧
    StoreRow 0x00002023#32 .sw 4 ∧
    ∀ (s : State) (raw : Word), Fetches s raw → opcodeOf raw = 0b0100011#7 → 3 ≤ (funct3Of raw).toNat →
      ∃ t, step s = .next t ∧ HaltedWith s t .illegalInstruction raw

/-- R17: the pc after an instruction that completes, and that an instruction that halts the hart keeps it. -/
def Obligations.NextPc : Prop :=
  ∀ (i : Instr) (s t : State), s.runState = .running → exec i s = .next t →
    (t.runState = .halted → t.pc = s.pc) ∧
      (t.runState = .running →
        match i with
        | .jal _ imm => t.pc = s.pc + imm
        | .jalr _ rs1 imm => t.pc = (s.reg rs1 + imm) &&& 0xFFFFFFFE#32
        | .beq rs1 rs2 imm => t.pc = if s.reg rs1 = s.reg rs2 then s.pc + imm else s.pc + 4#32
        | .bne rs1 rs2 imm => t.pc = if s.reg rs1 ≠ s.reg rs2 then s.pc + imm else s.pc + 4#32
        | .blt rs1 rs2 imm => t.pc = if (s.reg rs1).toInt < (s.reg rs2).toInt then s.pc + imm else s.pc + 4#32
        | .bge rs1 rs2 imm => t.pc = if (s.reg rs1).toInt ≥ (s.reg rs2).toInt then s.pc + imm else s.pc + 4#32
        | .bltu rs1 rs2 imm => t.pc = if (s.reg rs1).toNat < (s.reg rs2).toNat then s.pc + imm else s.pc + 4#32
        | .bgeu rs1 rs2 imm => t.pc = if (s.reg rs1).toNat ≥ (s.reg rs2).toNat then s.pc + imm else s.pc + 4#32
        | _ => t.pc = s.pc + 4#32)

/-- R121: a jump completes whatever its target, its link written; the next Step ends the program when the target is at
or beyond the end of memory, and raises FetchMisaligned when it is inside memory and not a multiple of 4. -/
def Obligations.JumpTargetsUnchecked : Prop :=
  ∀ (s : State) (raw : Word) (i : Instr) (rd : RegIdx) (target : Word), Fetches s raw → decode raw = .ok i →
    ((∃ imm, i = .jal rd imm ∧ target = s.pc + imm) ∨
      (∃ rs1 imm, i = .jalr rd rs1 imm ∧ target = (s.reg rs1 + imm) &&& 0xFFFFFFFE#32)) →
    ∃ t, step s = .next t ∧ Wrote s t rd (s.pc + 4#32) target ∧
      (s.mem.size ≤ target.toNat → ∃ u, step t = .next u ∧ HaltedWith t u .endOfProgram target) ∧
      (target.toNat < s.mem.size → target.toNat % 4 ≠ 0 →
        ∃ u, step t = .next u ∧ HaltedWith t u .fetchMisaligned target)

/-! ### Halts -/

/-- R151: a Step that halts a Running hart writes run_state, halt_cause and halt_info and nothing else. -/
def Obligations.HaltChangesOnlyHaltRecord : Prop :=
  ∀ (s t : State), s.runState = .running → step s = .next t → t.runState = .halted →
    ∃ cause info, cause ≠ .none ∧ HaltedWith s t cause info

/-- R153: the checks of a Step in their order, each with the halt it reports. -/
def Obligations.HaltPriority : Prop :=
  ∀ s : State, s.runState = .running →
    (s.mem.size ≤ s.pc.toNat → ∃ t, step s = .next t ∧ HaltedWith s t .endOfProgram s.pc) ∧
    (s.pc.toNat < s.mem.size → s.pc.toNat % 4 ≠ 0 → ∃ t, step s = .next t ∧ HaltedWith s t .fetchMisaligned s.pc) ∧
    (s.pc.toNat < s.mem.size → s.pc.toNat % 4 = 0 → s.mem.size < s.pc.toNat + 4 →
      ∃ t, step s = .next t ∧ HaltedWith s t .outOfBounds s.pc) ∧
    (s.pc.toNat % 4 = 0 → s.pc.toNat + 4 ≤ s.mem.size → (∀ i, decode (s.mem.wordAt s.pc.toNat) ≠ .ok i) →
      ∃ t, step s = .next t ∧ HaltedWith s t .illegalInstruction (s.mem.wordAt s.pc.toNat)) ∧
    (∀ i ea w, s.pc.toNat % 4 = 0 → s.pc.toNat + 4 ≤ s.mem.size → decode (s.mem.wordAt s.pc.toNat) = .ok i →
      dataAccess i s = some (ea, w) → s.mem.size < ea.toNat + w.bytes →
      ∃ t, step s = .next t ∧ HaltedWith s t .outOfBounds ea)

/-- R145: a Step that leaves the Running state does so in one of exactly four ways, each with its code, its condition
and its info. -/
def Obligations.FourWaysToHalt : Prop :=
  ∀ (s t : State), s.runState = .running → step s = .next t → t.runState = .halted →
    (t.haltCause.code = 1 ∧ t.haltInfo = s.pc ∧ s.mem.size ≤ s.pc.toNat) ∨
    (t.haltCause.code = 2 ∧ t.haltInfo = s.mem.wordAt s.pc.toNat ∧ (∀ i, decode t.haltInfo ≠ .ok i)) ∨
    (t.haltCause.code = 3 ∧ t.haltInfo = s.pc ∧ s.pc.toNat < s.mem.size ∧ s.mem.size < s.pc.toNat + 4) ∨
    (t.haltCause.code = 3 ∧ ∃ i w, decode (s.mem.wordAt s.pc.toNat) = .ok i ∧
      dataAccess i s = some (t.haltInfo, w) ∧ s.mem.size < t.haltInfo.toNat + w.bytes) ∨
    (t.haltCause.code = 4 ∧ t.haltInfo = s.pc ∧ s.pc.toNat < s.mem.size ∧ s.pc.extractLsb' 0 2 ≠ 0b00#2)

/-- R20: the numeric codes. -/
def Obligations.HaltCauseCodes : Prop :=
  HaltCause.none.code = 0 ∧ HaltCause.endOfProgram.code = 1 ∧ HaltCause.illegalInstruction.code = 2 ∧
    HaltCause.outOfBounds.code = 3 ∧ HaltCause.fetchMisaligned.code = 4

/-- R19, R23, R155: a Halted hart stays exactly as it is, however many Steps the driver asks for. -/
def Obligations.HaltedForever : Prop :=
  ∀ (k : Nat) (s : State), s.runState = .halted → Host.Core.run Sys2Proof.core k s = .next s

/-- R162: a Running hart that a Step halts has ended well or abnormally, not both, and it has ended well exactly when
its pc was at or beyond the end of memory. -/
def Obligations.DriverClassifiesHalt : Prop :=
  ∀ (s t : State), s.runState = .running → step s = .next t → t.runState = .halted →
    (t.endedWell = true ↔ s.mem.size ≤ s.pc.toNat) ∧ (t.endedAbnormally = true ↔ s.pc.toNat < s.mem.size)

/-! ### Steps and runs -/

/-- R23, R44, R52: when the four bytes at the pc, the first the least significant, decode to an instruction, a Step of a
Running hart is that instruction's execution, with nothing around it. -/
def Obligations.StepRunsDecodedInstruction : Prop :=
  ∀ (s : State) (i : Instr), s.runState = .running → s.pc.toNat % 4 = 0 → s.pc.toNat + 4 ≤ s.mem.size →
    decodeBytes [s.mem.readByte s.pc.toNat, s.mem.readByte (s.pc.toNat + 1), s.mem.readByte (s.pc.toNat + 2),
      s.mem.readByte (s.pc.toNat + 3)] = .ok (i, []) →
    step s = exec i s

/-- The host's probe (log entry 7): with an instruction of the table placed in any state whose memory is in canonical
form, the very next Step runs it. The model's own convention, no rule of the spec. -/
def Obligations.PlacedWordRuns : Prop :=
  ∀ (s : State) (nbits w : Nat) (i : Instr), s.mem.wf = true → decodeTableWord nbits w = some i →
    step (s.withFetchWord nbits w) = exec i (s.withFetchWord nbits w)

/-- The machine is total: any number of Steps from any state answers a next state, never the host's fault or refusal,
since the spec gives a state after every halt (log entry 1). -/
def Obligations.RunsNeverStick : Prop :=
  ∀ (k : Nat) (s : State), ∃ t, Host.Core.run Sys2Proof.core k s = .next t

/-- R29, R30: no Step changes the length of memory, and a Step changes a byte only where a store's access lies. -/
def Obligations.OnlyStoresChangeMemory : Prop :=
  ∀ (s t : State), step s = .next t →
    t.mem.size = s.mem.size ∧
      ∀ a, t.mem.readByte a ≠ s.mem.readByte a →
        s.runState = .running ∧
        ∃ i ea w, decode (s.mem.wordAt s.pc.toNat) = .ok i ∧ dataAccess i s = some (ea, w) ∧
          (∃ rs1 rs2 imm, i = .sb rs1 rs2 imm ∨ i = .sh rs1 rs2 imm ∨ i = .sw rs1 rs2 imm) ∧
          ea.toNat ≤ a ∧ a < ea.toNat + w.bytes ∧ a < s.mem.size

/-- R49: a word stored over the next instruction is the instruction the next Step runs. -/
def Obligations.StoreSeenByNextFetch : Prop :=
  ∀ (s : State) (rs1 rs2 : RegIdx) (imm : Word) (j : Instr), s.runState = .running → s.mem.wf = true →
    s.pc.toNat % 4 = 0 → s.pc.toNat + 8 ≤ s.mem.size →
    decode (s.mem.wordAt s.pc.toNat) = .ok (.sw rs1 rs2 imm) → s.reg rs1 + imm = s.pc + 4#32 →
    decode (s.reg rs2) = .ok j →
    ∃ t, step s = .next t ∧ t.pc = s.pc + 4#32 ∧ step t = exec j t

/-- R46, R169 and the source's scenario B: a load returns the bytes of the store just before it, at every width. -/
def Obligations.LoadReturnsStore : Prop :=
  ∀ (s : State) (rd rs1 rs2 : RegIdx) (imm : Word), s.mem.wf = true → rd ≠ 0#5 →
    ((s.reg rs1 + imm).toNat + 4 ≤ s.mem.size →
      ∃ t u, exec (.sw rs1 rs2 imm) s = .next t ∧ exec (.lw rd rs1 imm) t = .next u ∧ u.reg rd = s.reg rs2) ∧
    ((s.reg rs1 + imm).toNat + 2 ≤ s.mem.size →
      ∃ t u, exec (.sh rs1 rs2 imm) s = .next t ∧ exec (.lhu rd rs1 imm) t = .next u ∧
        u.reg rd = s.reg rs2 &&& 0x0000FFFF#32) ∧
    ((s.reg rs1 + imm).toNat + 1 ≤ s.mem.size →
      ∃ t u, exec (.sb rs1 rs2 imm) s = .next t ∧ exec (.lbu rd rs1 imm) t = .next u ∧
        u.reg rd = s.reg rs2 &&& 0x000000FF#32)

/-- R19 to R21: no instruction reads the halt record. Two states that differ in it only go, by the same instruction, to
states with the same registers, pc and memory. -/
def Obligations.HaltRecordInvisible : Prop :=
  ∀ (i : Instr) (s t : State) (r : RunState) (c : HaltCause) (w : Word), exec i s = .next t →
    ∃ u, exec i { s with runState := r, haltCause := c, haltInfo := w } = .next u ∧
      (∀ j, u.reg j = t.reg j) ∧ u.pc = t.pc ∧ u.mem = t.mem

/-! ### Reset and the invariant -/

/-- R163: reset with an image and an entry address puts every piece of state at the value the rule gives. -/
def Obligations.ResetState : Prop :=
  ∀ (memInit : List Byte) (resetPc : Word),
    (∀ j, (resetWith memInit resetPc).reg j = 0x00000000#32) ∧
      (resetWith memInit resetPc).pc = resetPc ∧
      (resetWith memInit resetPc).mem.size = memInit.length ∧
      (∀ a (h : a < memInit.length), (resetWith memInit resetPc).mem.readByte a = memInit[a]) ∧
      (resetWith memInit resetPc).runState = .running ∧
      (resetWith memInit resetPc).haltCause = .none ∧
      (resetWith memInit resetPc).haltInfo = 0x00000000#32

/-- The parameters `State.reset` takes: RESET_PC at its default of R7 (log entry 4), and the model's own choices of
2^32 bytes (log entry 2) that all read 0 (log entry 3). -/
def Obligations.DefaultReset : Prop :=
  (∀ j, State.reset.reg j = 0x00000000#32) ∧ State.reset.pc = 0x00000000#32 ∧
    State.reset.mem.size = 4294967296 ∧ (∀ a, State.reset.mem.readByte a = 0x00#8) ∧
    State.reset.runState = .running ∧ State.reset.haltCause = .none ∧ State.reset.haltInfo = 0x00000000#32

/-- R164: RESET_PC is not checked at reset; the first Step reports FetchMisaligned or EndOfProgram. -/
def Obligations.ResetPcUnchecked : Prop :=
  ∀ (memInit : List Byte) (resetPc : Word),
    (resetWith memInit resetPc).pc = resetPc ∧ (resetWith memInit resetPc).runState = .running ∧
    (memInit.length ≤ resetPc.toNat →
      ∃ t, step (resetWith memInit resetPc) = .next t ∧
        HaltedWith (resetWith memInit resetPc) t .endOfProgram resetPc) ∧
    (resetPc.toNat < memInit.length → resetPc.toNat % 4 ≠ 0 →
      ∃ t, step (resetWith memInit resetPc) = .next t ∧
        HaltedWith (resetWith memInit resetPc) t .fetchMisaligned resetPc)

/-- Headline: every Step keeps the invariant: memory in canonical form with at most 2^32 bytes, and a halt record that
tells what is so (a Halted hart's cause and info agree with its pc, memory and registers, for good). -/
def Obligations.StepKeepsInvariant : Prop :=
  ∀ (s t : State), s.Inv → step s = .next t → t.Inv

/-- The invariant holds after reset with any image of at most 2^32 bytes and any entry address, and at `State.reset`. -/
def Obligations.ResetHasInvariant : Prop :=
  State.reset.Inv ∧
    ∀ (memInit : List Byte) (resetPc : Word), memInit.length ≤ 4294967296 → (resetWith memInit resetPc).Inv

/-- Whatever the image of at most 2^32 bytes and the entry address, after any number of Steps the invariant holds and the
halt record is true, cause by cause (R145 to R149): a Running hart has cause None and info 0; a Halted one has one of the
four causes. EndOfProgram: the pc, at or beyond the end of memory. FetchMisaligned: the pc, inside memory and not a
multiple of 4. IllegalInstruction: the word at the pc, which decodes to no instruction. OutOfBounds: the pc, when the
fetch passes the end of memory, or else the address of the load or store at the pc, whose access does. -/
def Obligations.RunsReportTruly : Prop :=
  ∀ (memInit : List Byte) (resetPc : Word) (k : Nat) (t : State), memInit.length ≤ 4294967296 →
    Host.Core.run Sys2Proof.core k (resetWith memInit resetPc) = .next t →
    t.mem.size = memInit.length ∧ t.Inv ∧
      (t.runState = .running → t.haltCause = .none ∧ t.haltInfo = 0x00000000#32) ∧
      (t.runState = .halted → t.haltCause ≠ .none) ∧
      (t.haltCause = .endOfProgram → memInit.length ≤ t.pc.toNat ∧ t.haltInfo = t.pc) ∧
      (t.haltCause = .fetchMisaligned → t.pc.toNat < memInit.length ∧ t.pc.toNat % 4 ≠ 0 ∧ t.haltInfo = t.pc) ∧
      (t.haltCause = .illegalInstruction →
        t.pc.toNat % 4 = 0 ∧ t.pc.toNat + 4 ≤ memInit.length ∧ t.haltInfo = t.mem.wordAt t.pc.toNat ∧
          ∀ i, decode t.haltInfo ≠ .ok i) ∧
      (t.haltCause = .outOfBounds →
        t.pc.toNat % 4 = 0 ∧ t.pc.toNat < memInit.length ∧
          ((memInit.length < t.pc.toNat + 4 ∧ t.haltInfo = t.pc) ∨
            (t.pc.toNat + 4 ≤ memInit.length ∧ ∃ i w, decode (t.mem.wordAt t.pc.toNat) = .ok i ∧
              dataAccess i t = some (t.haltInfo, w) ∧ memInit.length < t.haltInfo.toNat + w.bytes)))
end

