-- ==== Sys2Proof/Laws/Decode.lean ====
section
/-! SUPPORT. What the decoder's field extractors answer on an encoded word, layout by layout, and that an immediate in
the range of its layout comes back whole. -/

namespace Sys2Proof

/-! ### Layout R -/

theorem opcodeOf_encodeR (f7 : BitVec 7) (f3 : BitVec 3) (rd rs1 rs2 : RegIdx) :
    opcodeOf (encodeR f7 f3 rd rs1 rs2) = 0b0110011#7 := by
  unfold opcodeOf encodeR place
  ext i hi
  interval_cases i <;> simp

theorem rdOf_encodeR (f7 : BitVec 7) (f3 : BitVec 3) (rd rs1 rs2 : RegIdx) :
    rdOf (encodeR f7 f3 rd rs1 rs2) = rd := by
  unfold rdOf encodeR place
  ext i hi
  interval_cases i <;> simp

theorem funct3Of_encodeR (f7 : BitVec 7) (f3 : BitVec 3) (rd rs1 rs2 : RegIdx) :
    funct3Of (encodeR f7 f3 rd rs1 rs2) = f3 := by
  unfold funct3Of encodeR place
  ext i hi
  interval_cases i <;> simp

theorem rs1Of_encodeR (f7 : BitVec 7) (f3 : BitVec 3) (rd rs1 rs2 : RegIdx) :
    rs1Of (encodeR f7 f3 rd rs1 rs2) = rs1 := by
  unfold rs1Of encodeR place
  ext i hi
  interval_cases i <;> simp

theorem rs2Of_encodeR (f7 : BitVec 7) (f3 : BitVec 3) (rd rs1 rs2 : RegIdx) :
    rs2Of (encodeR f7 f3 rd rs1 rs2) = rs2 := by
  unfold rs2Of encodeR place
  ext i hi
  interval_cases i <;> simp

theorem funct7Of_encodeR (f7 : BitVec 7) (f3 : BitVec 3) (rd rs1 rs2 : RegIdx) :
    funct7Of (encodeR f7 f3 rd rs1 rs2) = f7 := by
  unfold funct7Of encodeR place
  ext i hi
  interval_cases i <;> simp

/-! ### Layout I -/

theorem opcodeOf_encodeI (op : BitVec 7) (f3 : BitVec 3) (rd rs1 : RegIdx) (imm : Word) :
    opcodeOf (encodeI op f3 rd rs1 imm) = op := by
  unfold opcodeOf encodeI place
  ext i hi
  interval_cases i <;> simp

theorem rdOf_encodeI (op : BitVec 7) (f3 : BitVec 3) (rd rs1 : RegIdx) (imm : Word) :
    rdOf (encodeI op f3 rd rs1 imm) = rd := by
  unfold rdOf encodeI place
  ext i hi
  interval_cases i <;> simp

theorem funct3Of_encodeI (op : BitVec 7) (f3 : BitVec 3) (rd rs1 : RegIdx) (imm : Word) :
    funct3Of (encodeI op f3 rd rs1 imm) = f3 := by
  unfold funct3Of encodeI place
  ext i hi
  interval_cases i <;> simp

theorem rs1Of_encodeI (op : BitVec 7) (f3 : BitVec 3) (rd rs1 : RegIdx) (imm : Word) :
    rs1Of (encodeI op f3 rd rs1 imm) = rs1 := by
  unfold rs1Of encodeI place
  ext i hi
  interval_cases i <;> simp

/-! ### Layout I, immediate shifts -/

theorem opcodeOf_encodeShift (f7 : BitVec 7) (f3 : BitVec 3) (rd rs1 : RegIdx) (shamt : BitVec 5) :
    opcodeOf (encodeShift f7 f3 rd rs1 shamt) = 0b0010011#7 := by
  unfold opcodeOf encodeShift place
  ext i hi
  interval_cases i <;> simp

theorem rdOf_encodeShift (f7 : BitVec 7) (f3 : BitVec 3) (rd rs1 : RegIdx) (shamt : BitVec 5) :
    rdOf (encodeShift f7 f3 rd rs1 shamt) = rd := by
  unfold rdOf encodeShift place
  ext i hi
  interval_cases i <;> simp

theorem funct3Of_encodeShift (f7 : BitVec 7) (f3 : BitVec 3) (rd rs1 : RegIdx) (shamt : BitVec 5) :
    funct3Of (encodeShift f7 f3 rd rs1 shamt) = f3 := by
  unfold funct3Of encodeShift place
  ext i hi
  interval_cases i <;> simp

theorem rs1Of_encodeShift (f7 : BitVec 7) (f3 : BitVec 3) (rd rs1 : RegIdx) (shamt : BitVec 5) :
    rs1Of (encodeShift f7 f3 rd rs1 shamt) = rs1 := by
  unfold rs1Of encodeShift place
  ext i hi
  interval_cases i <;> simp

/-! ### Layout S -/

theorem opcodeOf_encodeS (f3 : BitVec 3) (rs1 rs2 : RegIdx) (imm : Word) :
    opcodeOf (encodeS f3 rs1 rs2 imm) = 0b0100011#7 := by
  unfold opcodeOf encodeS place
  ext i hi
  interval_cases i <;> simp

theorem funct3Of_encodeS (f3 : BitVec 3) (rs1 rs2 : RegIdx) (imm : Word) :
    funct3Of (encodeS f3 rs1 rs2 imm) = f3 := by
  unfold funct3Of encodeS place
  ext i hi
  interval_cases i <;> simp

theorem rs1Of_encodeS (f3 : BitVec 3) (rs1 rs2 : RegIdx) (imm : Word) :
    rs1Of (encodeS f3 rs1 rs2 imm) = rs1 := by
  unfold rs1Of encodeS place
  ext i hi
  interval_cases i <;> simp

theorem rs2Of_encodeS (f3 : BitVec 3) (rs1 rs2 : RegIdx) (imm : Word) :
    rs2Of (encodeS f3 rs1 rs2 imm) = rs2 := by
  unfold rs2Of encodeS place
  ext i hi
  interval_cases i <;> simp

/-! ### Layout B -/

theorem opcodeOf_encodeB (f3 : BitVec 3) (rs1 rs2 : RegIdx) (imm : Word) :
    opcodeOf (encodeB f3 rs1 rs2 imm) = 0b1100011#7 := by
  unfold opcodeOf encodeB place
  ext i hi
  interval_cases i <;> simp

theorem funct3Of_encodeB (f3 : BitVec 3) (rs1 rs2 : RegIdx) (imm : Word) :
    funct3Of (encodeB f3 rs1 rs2 imm) = f3 := by
  unfold funct3Of encodeB place
  ext i hi
  interval_cases i <;> simp

theorem rs1Of_encodeB (f3 : BitVec 3) (rs1 rs2 : RegIdx) (imm : Word) :
    rs1Of (encodeB f3 rs1 rs2 imm) = rs1 := by
  unfold rs1Of encodeB place
  ext i hi
  interval_cases i <;> simp

theorem rs2Of_encodeB (f3 : BitVec 3) (rs1 rs2 : RegIdx) (imm : Word) :
    rs2Of (encodeB f3 rs1 rs2 imm) = rs2 := by
  unfold rs2Of encodeB place
  ext i hi
  interval_cases i <;> simp

/-! ### Layout U -/

theorem opcodeOf_encodeU (op : BitVec 7) (rd : RegIdx) (imm : Word) :
    opcodeOf (encodeU op rd imm) = op := by
  unfold opcodeOf encodeU place
  ext i hi
  interval_cases i <;> simp

theorem rdOf_encodeU (op : BitVec 7) (rd : RegIdx) (imm : Word) :
    rdOf (encodeU op rd imm) = rd := by
  unfold rdOf encodeU place
  ext i hi
  interval_cases i <;> simp

/-! ### Layout J -/

theorem opcodeOf_encodeJ (rd : RegIdx) (imm : Word) :
    opcodeOf (encodeJ rd imm) = 0b1101111#7 := by
  unfold opcodeOf encodeJ place
  ext i hi
  interval_cases i <;> simp

theorem rdOf_encodeJ (rd : RegIdx) (imm : Word) :
    rdOf (encodeJ rd imm) = rd := by
  unfold rdOf encodeJ place
  ext i hi
  interval_cases i <;> simp

/-! ### Immediates -/

theorem signExtend_12 {imm : Word} (h : imm12Ok imm) : (imm.setWidth 12).signExtend 32 = imm := by
  simp only [imm12Ok, decide_eq_true_eq, BitVec.toInt_eq_toNat_cond] at h
  apply BitVec.eq_of_toInt_eq
  rw [BitVec.toInt_signExtend_of_le (by decide), BitVec.toInt_setWidth, BitVec.toInt_eq_toNat_cond, Int.bmod_def]
  have := imm.isLt
  split at h <;> omega

theorem signExtend_13 {imm : Word} (h : imm13Ok imm) : (imm.setWidth 13).signExtend 32 = imm := by
  simp only [imm13Ok, Bool.and_eq_true, decide_eq_true_eq, BitVec.toInt_eq_toNat_cond] at h
  obtain ⟨h, -⟩ := h
  apply BitVec.eq_of_toInt_eq
  rw [BitVec.toInt_signExtend_of_le (by decide), BitVec.toInt_setWidth, BitVec.toInt_eq_toNat_cond, Int.bmod_def]
  have := imm.isLt
  split at h <;> omega

theorem signExtend_21 {imm : Word} (h : imm21Ok imm) : (imm.setWidth 21).signExtend 32 = imm := by
  simp only [imm21Ok, Bool.and_eq_true, decide_eq_true_eq, BitVec.toInt_eq_toNat_cond] at h
  obtain ⟨h, -⟩ := h
  apply BitVec.eq_of_toInt_eq
  rw [BitVec.toInt_signExtend_of_le (by decide), BitVec.toInt_setWidth, BitVec.toInt_eq_toNat_cond, Int.bmod_def]
  have := imm.isLt
  split at h <;> omega

/-- The low `n` bits of a multiple of 2^n are 0. -/
theorem getLsbD_of_mod {imm : Word} {n k : Nat} (h : imm.toNat % 2 ^ n = 0) (hk : k < n) : imm.getLsbD k = false := by
  have := congrArg (·.testBit k) h
  simpa [Nat.testBit_mod_two_pow, hk, BitVec.testBit_toNat] using this

theorem immI_encodeI (op : BitVec 7) (f3 : BitVec 3) (rd rs1 : RegIdx) {imm : Word} (h : imm12Ok imm) :
    immI (encodeI op f3 rd rs1 imm) = imm := by
  have : (encodeI op f3 rd rs1 imm).extractLsb' 20 12 = imm.setWidth 12 := by
    unfold encodeI place
    ext i hi
    interval_cases i <;> simp
  rw [immI, this, signExtend_12 h]

/-- The discriminant of an immediate shift comes back as `imm[11:5]` (R56). -/
theorem immI_encodeShift_discriminant (f7 : BitVec 7) (f3 : BitVec 3) (rd rs1 : RegIdx) (shamt : BitVec 5) :
    (immI (encodeShift f7 f3 rd rs1 shamt)).extractLsb' 5 7 = f7 := by
  unfold immI encodeShift place
  apply BitVec.eq_of_getLsbD_eq
  intro i hi
  simp only [BitVec.getLsbD_extractLsb', BitVec.getLsbD_signExtend]
  interval_cases i <;> simp

/-- The amount of an immediate shift comes back as `imm[4:0]` (R56). -/
theorem immI_encodeShift_amount (f7 : BitVec 7) (f3 : BitVec 3) (rd rs1 : RegIdx) (shamt : BitVec 5) :
    (immI (encodeShift f7 f3 rd rs1 shamt)).extractLsb' 0 5 = shamt := by
  unfold immI encodeShift place
  apply BitVec.eq_of_getLsbD_eq
  intro i hi
  simp only [BitVec.getLsbD_extractLsb', BitVec.getLsbD_signExtend]
  interval_cases i <;> simp

theorem immS_encodeS (f3 : BitVec 3) (rs1 rs2 : RegIdx) {imm : Word} (h : imm12Ok imm) :
    immS (encodeS f3 rs1 rs2 imm) = imm := by
  have : (encodeS f3 rs1 rs2 imm).extractLsb' 25 7 ++ (encodeS f3 rs1 rs2 imm).extractLsb' 7 5 = imm.setWidth 12 := by
    unfold encodeS place
    apply BitVec.eq_of_getLsbD_eq
    intro i hi
    simp only [BitVec.getLsbD_append, BitVec.getLsbD_extractLsb', BitVec.getLsbD_setWidth]
    interval_cases i <;> simp
  rw [immS, this, signExtend_12 h]

theorem immB_encodeB (f3 : BitVec 3) (rs1 rs2 : RegIdx) {imm : Word} (h : imm13Ok imm) :
    immB (encodeB f3 rs1 rs2 imm) = imm := by
  have h0 : imm.getLsbD 0 = false := getLsbD_of_mod (n := 1) (by simp [imm13Ok] at h; omega) (by omega)
  have : (encodeB f3 rs1 rs2 imm).extractLsb' 31 1 ++ (encodeB f3 rs1 rs2 imm).extractLsb' 7 1 ++
      (encodeB f3 rs1 rs2 imm).extractLsb' 25 6 ++ (encodeB f3 rs1 rs2 imm).extractLsb' 8 4 ++ 0#1 =
      imm.setWidth 13 := by
    unfold encodeB place
    apply BitVec.eq_of_getLsbD_eq
    intro i hi
    simp only [BitVec.getLsbD_append, BitVec.getLsbD_extractLsb', BitVec.getLsbD_setWidth]
    interval_cases i <;> simp_all
  rw [immB, this, signExtend_13 h]

theorem immU_encodeU (op : BitVec 7) (rd : RegIdx) {imm : Word} (h : immUpperOk imm) :
    immU (encodeU op rd imm) = imm := by
  have h0 : ∀ k, k < 12 → imm.getLsbD k = false := fun k hk =>
    getLsbD_of_mod (n := 12) (by simpa [immUpperOk] using h) hk
  unfold immU encodeU place
  apply BitVec.eq_of_getLsbD_eq
  intro i hi
  have h0i := h0 i
  simp only [BitVec.getLsbD_append, BitVec.getLsbD_extractLsb', BitVec.getLsbD_setWidth]
  interval_cases i <;> simp_all

theorem immJ_encodeJ (rd : RegIdx) {imm : Word} (h : imm21Ok imm) : immJ (encodeJ rd imm) = imm := by
  have h0 : imm.getLsbD 0 = false := getLsbD_of_mod (n := 1) (by simp [imm21Ok] at h; omega) (by omega)
  have : (encodeJ rd imm).extractLsb' 31 1 ++ (encodeJ rd imm).extractLsb' 12 8 ++
      (encodeJ rd imm).extractLsb' 20 1 ++ (encodeJ rd imm).extractLsb' 21 10 ++ 0#1 = imm.setWidth 21 := by
    unfold encodeJ place
    apply BitVec.eq_of_getLsbD_eq
    intro i hi
    simp only [BitVec.getLsbD_append, BitVec.getLsbD_extractLsb', BitVec.getLsbD_setWidth]
    interval_cases i <;> simp_all
  rw [immJ, this, signExtend_21 h]

end Sys2Proof
end

