-- ==== Sys2Proof/Laws/Memory.lean ====
section
/-! SUPPORT. Reads after writes of memory, and that every memory operation keeps the canonical form. -/

namespace Sys2Proof.Machine

/-! ### One cell -/

theorem cellAt_of_lt {size lo a : Nat} {cs : List Host.Cell} (h : Memory.cellsOk size lo cs) (ha : a < lo) :
    cellAt a cs = Config.unlistedByte := by
  induction cs generalizing lo with
  | nil => rfl
  | cons c rest ih =>
    obtain ⟨k, b⟩ := c
    simp only [Memory.cellsOk, Bool.and_eq_true, decide_eq_true_eq] at h
    have hk : k ≠ a := by omega
    simp [cellAt, hk, ih h.2 (by omega)]

theorem cellAt_of_size_le {size lo a : Nat} {cs : List Host.Cell} (h : Memory.cellsOk size lo cs) (ha : size ≤ a) :
    cellAt a cs = Config.unlistedByte := by
  induction cs generalizing lo with
  | nil => rfl
  | cons c rest ih =>
    obtain ⟨k, b⟩ := c
    simp only [Memory.cellsOk, Bool.and_eq_true, decide_eq_true_eq] at h
    have hk : k ≠ a := by omega
    simp [cellAt, hk, ih h.2]

/-- A cell other than the one stored to keeps its byte, whatever the list. -/
theorem cellAt_cellStore_of_ne {a x : Nat} (v : Byte) (cs : List Host.Cell) (hx : x ≠ a) :
    cellAt x (cellStore a v cs) = cellAt x cs := by
  induction cs with
  | nil => unfold cellStore; split <;> simp [cellAt, Ne.symm hx]
  | cons c rest ih =>
    obtain ⟨k, b⟩ := c
    unfold cellStore
    split
    · simp [cellAt, ih]
    · split
      · next h => subst h; split <;> simp [cellAt, Ne.symm hx]
      · split <;> simp [cellAt, Ne.symm hx]

/-- The cell stored to holds the byte, when the list is in canonical form. -/
theorem cellAt_cellStore_self {size lo a : Nat} (v : Byte) {cs : List Host.Cell} (h : Memory.cellsOk size lo cs) :
    cellAt a (cellStore a v cs) = v := by
  induction cs generalizing lo with
  | nil => unfold cellStore; split <;> simp_all [cellAt]
  | cons c rest ih =>
    obtain ⟨k, b⟩ := c
    simp only [Memory.cellsOk, Bool.and_eq_true, decide_eq_true_eq] at h
    unfold cellStore
    split
    · next hk => simp [cellAt, Nat.ne_of_lt hk, ih h.2]
    · split
      · next hk =>
        subst hk
        split
        · next hv => rw [cellAt_of_lt h.2 (by omega), hv]
        · simp [cellAt]
      · next hk hne =>
        split
        · next hv => rw [cellAt, if_neg hne, cellAt_of_lt h.2 (by omega), hv]
        · simp [cellAt]

theorem cellsOk_mono {size lo lo' : Nat} {cs : List Host.Cell} (h : Memory.cellsOk size lo cs) (hl : lo' ≤ lo) :
    Memory.cellsOk size lo' cs := by
  cases cs with
  | nil => rfl
  | cons c rest =>
    simp only [Memory.cellsOk, Bool.and_eq_true, decide_eq_true_eq] at h ⊢
    exact ⟨⟨⟨by omega, h.1.1.2⟩, h.1.2⟩, h.2⟩

/-- Storing a byte keeps the cells in canonical form. -/
theorem cellsOk_cellStore {size lo a : Nat} (v : Byte) {cs : List Host.Cell} (h : Memory.cellsOk size lo cs)
    (hlo : lo ≤ a) (ha : a < size) : Memory.cellsOk size lo (cellStore a v cs) := by
  induction cs generalizing lo with
  | nil => unfold cellStore; split <;> simp_all [Memory.cellsOk]
  | cons c rest ih =>
    obtain ⟨k, b⟩ := c
    simp only [Memory.cellsOk, Bool.and_eq_true, decide_eq_true_eq] at h
    obtain ⟨⟨⟨h1, h2⟩, h3⟩, h4⟩ := h
    unfold cellStore
    split
    · next hk => simp [Memory.cellsOk, h1, h2, h3, ih h4 (by omega)]
    · split
      · next hk =>
        subst hk
        split
        · exact cellsOk_mono h4 (by omega)
        · next hv => simp [Memory.cellsOk, h1, h2, hv, h4]
      · next hk hne =>
        split
        · simp [Memory.cellsOk, h1, h2, h3, h4]
        · next hv => simp [Memory.cellsOk, hlo, ha, hv, h2, h3, h4]; omega

/-! ### One byte -/

theorem Memory.wf_iff (m : Memory) :
    m.wf = true ↔ m.size ≤ Config.maxMemLen ∧ Memory.cellsOk m.size 0 m.cells = true := by
  simp [Memory.wf]

@[simp] theorem Memory.writeByte_size (m : Memory) (a : Nat) (b : Byte) : (m.writeByte a b).size = m.size := rfl

theorem Memory.readByte_writeByte_of_ne {a x : Nat} (m : Memory) (b : Byte) (hx : x ≠ a) :
    (m.writeByte a b).readByte x = m.readByte x := cellAt_cellStore_of_ne b m.cells hx

theorem Memory.readByte_writeByte_self {m : Memory} (h : m.wf) (a : Nat) (b : Byte) :
    (m.writeByte a b).readByte a = b := cellAt_cellStore_self b ((m.wf_iff.mp h).2)

theorem Memory.writeByte_wf {m : Memory} (h : m.wf) {a : Nat} (b : Byte) (ha : a < m.size) : (m.writeByte a b).wf := by
  rw [Memory.wf_iff] at h ⊢
  exact ⟨h.1, cellsOk_cellStore b h.2 (Nat.zero_le a) ha⟩

/-- A byte outside memory is not listed. -/
theorem Memory.readByte_of_size_le {m : Memory} (h : m.wf) {a : Nat} (ha : m.size ≤ a) :
    m.readByte a = Config.unlistedByte := cellAt_of_size_le ((m.wf_iff.mp h).2) ha

/-! ### Several bytes -/

/-- Bit by bit, what a read of `n` bytes answers (R31). -/
theorem Memory.getLsbD_readBytes (m : Memory) (a n j : Nat) :
    (m.readBytes a n).getLsbD j = (decide (j < 8 * n) && (m.readByte (a + j / 8)).getLsbD (j % 8)) := by
  induction n generalizing a j with
  | zero => simp [Memory.readBytes]
  | succ n ih =>
    unfold Memory.readBytes
    by_cases hj : j < 8
    · have h0 : j / 8 = 0 := by omega
      have h1 : j % 8 = j := by omega
      have h2 : j < 8 * (n + 1) := by omega
      rw [BitVec.getLsbD_append]
      simp [hj, h0, h1, h2]
    · have h0 : a + 1 + (j - 8) / 8 = a + j / 8 := by omega
      have h1 : (j - 8) % 8 = j % 8 := by omega
      have h2 : j - 8 < 8 * n ↔ j < 8 * (n + 1) := by omega
      rw [BitVec.getLsbD_append]
      simp [hj, ih, h0, h1, h2]

theorem Memory.readBytes_congr {m m' : Memory} {a n : Nat}
    (h : ∀ x, a ≤ x → x < a + n → m.readByte x = m'.readByte x) : m.readBytes a n = m'.readBytes a n := by
  induction n generalizing a with
  | zero => rfl
  | succ n ih =>
    unfold Memory.readBytes
    rw [h a (Nat.le_refl a) (by omega), ih fun x h1 h2 => h x (by omega) (by omega)]

@[simp] theorem Memory.writeBytes_size {k : Nat} (m : Memory) (a n : Nat) (v : BitVec k) :
    (m.writeBytes a n v).size = m.size := by
  induction n generalizing m a v with
  | zero => rfl
  | succ n ih => simp [Memory.writeBytes, ih]

/-- A write of `n` bytes from `a` changes no byte outside `a` to `a + n - 1` (R32). -/
theorem Memory.readByte_writeBytes_of_outside {k : Nat} (m : Memory) {a n x : Nat} (v : BitVec k)
    (hx : x < a ∨ a + n ≤ x) : (m.writeBytes a n v).readByte x = m.readByte x := by
  induction n generalizing m a v with
  | zero => rfl
  | succ n ih =>
    unfold Memory.writeBytes
    rw [ih _ _ (by omega), Memory.readByte_writeByte_of_ne _ _ (by omega)]

theorem Memory.writeBytes_wf {k : Nat} {m : Memory} (h : m.wf) {a n : Nat} (v : BitVec k) (ha : a + n ≤ m.size) :
    (m.writeBytes a n v).wf := by
  induction n generalizing m a v with
  | zero => exact h
  | succ n ih => exact ih (Memory.writeByte_wf h _ (by omega)) _ (by simp; omega)

/-- Byte `j` of a write of `n` bytes is byte `j` of the value (R32). -/
theorem Memory.readByte_writeBytes_of_inside {k : Nat} {m : Memory} (h : m.wf) {a n j : Nat} (v : BitVec k)
    (ha : a + n ≤ m.size) (hj : j < n) : (m.writeBytes a n v).readByte (a + j) = v.extractLsb' (8 * j) 8 := by
  induction n generalizing m a v j with
  | zero => omega
  | succ n ih =>
    unfold Memory.writeBytes
    cases j with
    | zero =>
      rw [Memory.readByte_writeBytes_of_outside _ _ (by omega), Nat.add_zero, Memory.readByte_writeByte_self h]
      ext i hi
      simp
    | succ j =>
      have := ih (m := m.writeByte a (v.setWidth 8)) (a := a + 1) (j := j) (Memory.writeByte_wf h _ (by omega))
        (v >>> 8) (by simp; omega) (by omega)
      rw [show a + (j + 1) = a + 1 + j by omega, this]
      ext i hi
      simp only [BitVec.getElem_extractLsb', BitVec.getLsbD_ushiftRight]
      congr 1
      omega

/-! ### The memory port -/

theorem Memory.inBounds_iff (m : Memory) (addr : Word) (w : Width) :
    m.inBounds addr w = true ↔ addr.toNat + w.bytes ≤ m.size := by simp [Memory.inBounds]

theorem Memory.read_ok {m : Memory} {addr : Word} {w : Width} (h : addr.toNat + w.bytes ≤ m.size) :
    m.read addr w = .ok (m.readBytes addr.toNat w.bytes) := by simp [Memory.read, Memory.inBounds, h]

theorem Memory.read_error {m : Memory} {addr : Word} {w : Width} (h : m.size < addr.toNat + w.bytes) :
    m.read addr w = .error (.outOfBounds addr) := by
  simp [Memory.read, Memory.inBounds, Nat.not_le.mpr h]

theorem Memory.write_ok {k : Nat} {m : Memory} {addr : Word} {w : Width} (v : BitVec k)
    (h : addr.toNat + w.bytes ≤ m.size) : m.write addr w v = .ok (m.writeBytes addr.toNat w.bytes v) := by
  simp [Memory.write, Memory.inBounds, h]

theorem Memory.write_error {k : Nat} {m : Memory} {addr : Word} {w : Width} (v : BitVec k)
    (h : m.size < addr.toNat + w.bytes) : m.write addr w v = .error (.outOfBounds addr) := by
  simp [Memory.write, Memory.inBounds, Nat.not_le.mpr h]

/-- Everything a write that answers a memory has done: length, canonical form and the bytes outside the access. -/
theorem Memory.write_cases {k : Nat} {m m' : Memory} {addr : Word} {w : Width} {v : BitVec k}
    (h : m.write addr w v = .ok m') :
    addr.toNat + w.bytes ≤ m.size ∧ m' = m.writeBytes addr.toNat w.bytes v ∧ m'.size = m.size ∧
      (m.wf → m'.wf) ∧ ∀ x, x < addr.toNat ∨ addr.toNat + w.bytes ≤ x → m'.readByte x = m.readByte x := by
  by_cases hb : addr.toNat + w.bytes ≤ m.size
  · rw [Memory.write_ok v hb] at h
    cases h
    exact ⟨hb, rfl, Memory.writeBytes_size .., fun hw => Memory.writeBytes_wf hw v hb,
      fun x hx => Memory.readByte_writeBytes_of_outside m v hx⟩
  · rw [Memory.write_error v (by omega)] at h
    cases h

theorem cellsOk_size_mono {size size' lo : Nat} {cs : List Host.Cell} (h : Memory.cellsOk size lo cs)
    (hs : size ≤ size') : Memory.cellsOk size' lo cs := by
  induction cs generalizing lo with
  | nil => rfl
  | cons c rest ih =>
    simp only [Memory.cellsOk, Bool.and_eq_true, decide_eq_true_eq] at h ⊢
    exact ⟨⟨⟨h.1.1.1, by omega⟩, h.1.2⟩, ih h.2⟩

/-- A memory grown to hold an address keeps its canonical form and its bytes (log entry 7). -/
theorem Memory.growTo_wf {m : Memory} (h : m.wf) {n : Nat} (hn : n ≤ Config.maxMemLen) : (m.growTo n).wf := by
  rw [Memory.wf_iff] at h ⊢
  refine ⟨Nat.max_le.mpr ⟨h.1, hn⟩, cellsOk_size_mono h.2 (Nat.le_max_left _ _)⟩

@[simp] theorem Memory.growTo_size (m : Memory) (n : Nat) : (m.growTo n).size = max m.size n := rfl

/-! ### The image -/

theorem cellsOk_cellsOfBytes (bs : List Byte) (a size : Nat) (h : a + bs.length ≤ size) :
    Memory.cellsOk size a (cellsOfBytes a bs) := by
  induction bs generalizing a with
  | nil => rfl
  | cons b rest ih =>
    have := ih (a + 1) (by simp at h; omega)
    unfold cellsOfBytes
    split
    · exact cellsOk_mono this (by omega)
    · next hb => simp [Memory.cellsOk, hb, this]; simp at h; omega

theorem cellAt_cellsOfBytes (bs : List Byte) (a j : Nat) (hj : j < bs.length) :
    cellAt (a + j) (cellsOfBytes a bs) = bs[j] := by
  induction bs generalizing a j with
  | nil => simp at hj
  | cons b rest ih =>
    have hrest : Memory.cellsOk (a + 1 + rest.length) (a + 1) (cellsOfBytes (a + 1) rest) :=
      cellsOk_cellsOfBytes rest (a + 1) _ (Nat.le_refl _)
    unfold cellsOfBytes
    cases j with
    | zero =>
      split
      · next hb => simp [cellAt_of_lt hrest (Nat.lt_succ_self a), hb]
      · simp [cellAt]
    | succ j =>
      have hstep := ih (a + 1) j (by simpa using hj)
      rw [show a + 1 + j = a + (j + 1) by omega] at hstep
      split
      · simpa using hstep
      · simp [cellAt, hstep]

/-- An image of at most 2^32 bytes gives a memory in canonical form. -/
theorem Memory.ofBytes_wf {bs : List Byte} (h : bs.length ≤ Config.maxMemLen) : (Memory.ofBytes bs).wf := by
  rw [Memory.wf_iff]
  exact ⟨h, cellsOk_cellsOfBytes bs 0 _ (by simp [Memory.ofBytes])⟩

/-! ### Canonical form -/

/-- Canonical lists that read alike are equal, so equal memories are equal data. -/
theorem cells_ext {size lo : Nat} {cs ds : List Host.Cell} (hc : Memory.cellsOk size lo cs)
    (hd : Memory.cellsOk size lo ds) (h : ∀ x, cellAt x cs = cellAt x ds) : cs = ds := by
  induction cs generalizing lo ds with
  | nil =>
    cases ds with
    | nil => rfl
    | cons d ds =>
      obtain ⟨k, b⟩ := d
      simp only [Memory.cellsOk, Bool.and_eq_true, decide_eq_true_eq] at hd
      have := h k
      simp [cellAt] at this
      exact absurd this.symm hd.1.2
  | cons c cs ih =>
    obtain ⟨k, b⟩ := c
    cases ds with
    | nil =>
      simp only [Memory.cellsOk, Bool.and_eq_true, decide_eq_true_eq] at hc
      have := h k
      simp [cellAt] at this
      exact absurd this hc.1.2
    | cons d ds =>
      obtain ⟨l, e⟩ := d
      simp only [Memory.cellsOk, Bool.and_eq_true, decide_eq_true_eq] at hc hd
      have hkl : k = l := by
        rcases Nat.lt_trichotomy k l with hlt | heq | hgt
        · have := h k
          simp [cellAt, Nat.ne_of_gt hlt, cellAt_of_lt hd.2 (show k < l + 1 by omega)] at this
          exact absurd this hc.1.2
        · exact heq
        · have := h l
          simp [cellAt, Nat.ne_of_gt hgt, cellAt_of_lt hc.2 (show l < k + 1 by omega)] at this
          exact absurd this.symm hd.1.2
      subst hkl
      have hbe : b = e := by simpa [cellAt] using h k
      subst hbe
      congr 1
      refine ih hc.2 hd.2 fun x => ?_
      by_cases hx : k = x
      · subst hx
        rw [cellAt_of_lt hc.2 (by omega), cellAt_of_lt hd.2 (by omega)]
      · simpa [cellAt, hx] using h x

/-- Two memories in canonical form with the same length and the same bytes are the same memory. -/
theorem Memory.ext_of_readByte {m m' : Memory} (hm : m.wf) (hm' : m'.wf) (hs : m.size = m'.size)
    (h : ∀ x, m.readByte x = m'.readByte x) : m = m' := by
  obtain ⟨size, cs⟩ := m
  obtain ⟨size', ds⟩ := m'
  obtain rfl : size = size' := hs
  rw [Memory.wf_iff] at hm hm'
  exact congrArg _ (cells_ext hm.2 hm'.2 h)

end Sys2Proof.Machine
end

