-- ==== Sys2Proof/Laws/State.lean ====
section
/-! SUPPORT. What each state update does to each field and to each register read. -/

namespace Sys2Proof.Machine

@[simp] theorem State.reg_zero (s : State) : s.reg 0#5 = 0x00000000#32 := rfl

@[simp] theorem State.setReg_zero (s : State) (v : Word) : s.setReg 0#5 v = s := rfl

/-- A register read after a register write (R12, R13). -/
theorem State.reg_setReg (s : State) (i j : RegIdx) (v : Word) :
    (s.setReg i v).reg j = if j = i ∧ j ≠ 0#5 then v else s.reg j := by
  unfold State.reg State.setReg
  by_cases hj : j = 0#5
  · simp [hj]
  by_cases hi : i = 0#5
  · have : j ≠ i := fun h => hj (h.trans hi)
    simp [hi, hj]
  · have hij : i.toNat - 1 = j.toNat - 1 ↔ j = i := by
      rw [← BitVec.toNat_inj] at *
      simp only [BitVec.toNat_ofNat] at hi hj
      omega
    simp [hi, hj, Vector.getElem_set, hij]

@[simp] theorem State.setReg_pc (s : State) (i : RegIdx) (v : Word) : (s.setReg i v).pc = s.pc := by
  unfold State.setReg; split <;> rfl
@[simp] theorem State.setReg_mem (s : State) (i : RegIdx) (v : Word) : (s.setReg i v).mem = s.mem := by
  unfold State.setReg; split <;> rfl
@[simp] theorem State.setReg_runState (s : State) (i : RegIdx) (v : Word) : (s.setReg i v).runState = s.runState := by
  unfold State.setReg; split <;> rfl
@[simp] theorem State.setReg_haltCause (s : State) (i : RegIdx) (v : Word) : (s.setReg i v).haltCause = s.haltCause := by
  unfold State.setReg; split <;> rfl
@[simp] theorem State.setReg_haltInfo (s : State) (i : RegIdx) (v : Word) : (s.setReg i v).haltInfo = s.haltInfo := by
  unfold State.setReg; split <;> rfl

@[simp] theorem State.setPc_regs (s : State) (t : Word) : (s.setPc t).regs = s.regs := rfl
@[simp] theorem State.setPc_pc (s : State) (t : Word) : (s.setPc t).pc = t := rfl
@[simp] theorem State.setPc_mem (s : State) (t : Word) : (s.setPc t).mem = s.mem := rfl
@[simp] theorem State.setPc_runState (s : State) (t : Word) : (s.setPc t).runState = s.runState := rfl
@[simp] theorem State.setPc_haltCause (s : State) (t : Word) : (s.setPc t).haltCause = s.haltCause := rfl
@[simp] theorem State.setPc_haltInfo (s : State) (t : Word) : (s.setPc t).haltInfo = s.haltInfo := rfl
@[simp] theorem State.setPc_reg (s : State) (t : Word) (j : RegIdx) : (s.setPc t).reg j = s.reg j := rfl

@[simp] theorem State.setMem_regs (s : State) (m : Memory) : (s.setMem m).regs = s.regs := rfl
@[simp] theorem State.setMem_pc (s : State) (m : Memory) : (s.setMem m).pc = s.pc := rfl
@[simp] theorem State.setMem_mem (s : State) (m : Memory) : (s.setMem m).mem = m := rfl
@[simp] theorem State.setMem_runState (s : State) (m : Memory) : (s.setMem m).runState = s.runState := rfl
@[simp] theorem State.setMem_haltCause (s : State) (m : Memory) : (s.setMem m).haltCause = s.haltCause := rfl
@[simp] theorem State.setMem_haltInfo (s : State) (m : Memory) : (s.setMem m).haltInfo = s.haltInfo := rfl
@[simp] theorem State.setMem_reg (s : State) (m : Memory) (j : RegIdx) : (s.setMem m).reg j = s.reg j := rfl

@[simp] theorem State.advance_regs (s : State) : (s.advance).regs = s.regs := rfl
@[simp] theorem State.advance_pc (s : State) : (s.advance).pc = s.pc + 4#32 := rfl
@[simp] theorem State.advance_mem (s : State) : (s.advance).mem = s.mem := rfl
@[simp] theorem State.advance_runState (s : State) : (s.advance).runState = s.runState := rfl
@[simp] theorem State.advance_haltCause (s : State) : (s.advance).haltCause = s.haltCause := rfl
@[simp] theorem State.advance_haltInfo (s : State) : (s.advance).haltInfo = s.haltInfo := rfl
@[simp] theorem State.advance_reg (s : State) (j : RegIdx) : (s.advance).reg j = s.reg j := rfl

@[simp] theorem State.halt_regs (s : State) (c : HaltCause) (w : Word) : (s.halt c w).regs = s.regs := rfl
@[simp] theorem State.halt_pc (s : State) (c : HaltCause) (w : Word) : (s.halt c w).pc = s.pc := rfl
@[simp] theorem State.halt_mem (s : State) (c : HaltCause) (w : Word) : (s.halt c w).mem = s.mem := rfl
@[simp] theorem State.halt_runState (s : State) (c : HaltCause) (w : Word) : (s.halt c w).runState = .halted := rfl
@[simp] theorem State.halt_haltCause (s : State) (c : HaltCause) (w : Word) : (s.halt c w).haltCause = c := rfl
@[simp] theorem State.halt_haltInfo (s : State) (c : HaltCause) (w : Word) : (s.halt c w).haltInfo = w := rfl
@[simp] theorem State.halt_reg (s : State) (c : HaltCause) (w : Word) (j : RegIdx) : (s.halt c w).reg j = s.reg j := rfl

@[simp] theorem State.raise_regs (s : State) (r : Raised) : (s.raise r).regs = s.regs := rfl
@[simp] theorem State.raise_pc (s : State) (r : Raised) : (s.raise r).pc = s.pc := rfl
@[simp] theorem State.raise_mem (s : State) (r : Raised) : (s.raise r).mem = s.mem := rfl
@[simp] theorem State.raise_runState (s : State) (r : Raised) : (s.raise r).runState = .halted := rfl
@[simp] theorem State.raise_haltCause (s : State) (r : Raised) : (s.raise r).haltCause = r.cause := rfl
@[simp] theorem State.raise_haltInfo (s : State) (r : Raised) : (s.raise r).haltInfo = r.info := rfl
@[simp] theorem State.raise_reg (s : State) (r : Raised) (j : RegIdx) : (s.raise r).reg j = s.reg j := rfl

@[simp] theorem State.endProgram_regs (s : State) : (s.endProgram).regs = s.regs := rfl
@[simp] theorem State.endProgram_pc (s : State) : (s.endProgram).pc = s.pc := rfl
@[simp] theorem State.endProgram_mem (s : State) : (s.endProgram).mem = s.mem := rfl
@[simp] theorem State.endProgram_runState (s : State) : (s.endProgram).runState = .halted := rfl
@[simp] theorem State.endProgram_haltCause (s : State) : (s.endProgram).haltCause = .endOfProgram := rfl
@[simp] theorem State.endProgram_haltInfo (s : State) : (s.endProgram).haltInfo = s.pc := rfl
@[simp] theorem State.endProgram_reg (s : State) (j : RegIdx) : (s.endProgram).reg j = s.reg j := rfl

@[simp] theorem State.writeResult_pc (s : State) (rd : RegIdx) (v : Word) :
    (s.writeResult rd v).pc = s.pc + 4#32 := by simp [State.writeResult]
@[simp] theorem State.writeResult_mem (s : State) (rd : RegIdx) (v : Word) :
    (s.writeResult rd v).mem = s.mem := by simp [State.writeResult]
@[simp] theorem State.writeResult_runState (s : State) (rd : RegIdx) (v : Word) :
    (s.writeResult rd v).runState = s.runState := by simp [State.writeResult]
@[simp] theorem State.writeResult_haltCause (s : State) (rd : RegIdx) (v : Word) :
    (s.writeResult rd v).haltCause = s.haltCause := by simp [State.writeResult]
@[simp] theorem State.writeResult_haltInfo (s : State) (rd : RegIdx) (v : Word) :
    (s.writeResult rd v).haltInfo = s.haltInfo := by simp [State.writeResult]

/-- A register read after a result is written (R13). -/
theorem State.reg_writeResult (s : State) (rd j : RegIdx) (v : Word) :
    (s.writeResult rd v).reg j = if j = rd ∧ j ≠ 0#5 then v else s.reg j := by
  simp [State.writeResult, State.reg_setReg]

/-- Two states with the same register reads have the same register file. -/
theorem State.regs_ext {s t : State} (h : ∀ i, s.reg i = t.reg i) : s.regs = t.regs := by
  refine Vector.ext fun k hk => ?_
  have := h (BitVec.ofNat 5 (k + 1))
  have h1 : (BitVec.ofNat 5 (k + 1)).toNat = k + 1 := by simp; omega
  have h0 : BitVec.ofNat 5 (k + 1) ≠ 0#5 := by
    intro h; have := congrArg BitVec.toNat h; simp at this; omega
  simpa [State.reg, h0, h1] using this

/-- Reset leaves every register 0 (R163). -/
@[simp] theorem State.construct_reg (m : Memory) (pc : Word) (i : RegIdx) :
    (State.construct m pc).reg i = 0x00000000#32 := by
  unfold State.reg State.construct; split <;> simp

@[simp] theorem State.construct_pc (m : Memory) (pc : Word) : (State.construct m pc).pc = pc := rfl
@[simp] theorem State.construct_mem (m : Memory) (pc : Word) : (State.construct m pc).mem = m := rfl
@[simp] theorem State.construct_runState (m : Memory) (pc : Word) : (State.construct m pc).runState = .running := rfl
@[simp] theorem State.construct_haltCause (m : Memory) (pc : Word) : (State.construct m pc).haltCause = .none := rfl
@[simp] theorem State.construct_haltInfo (m : Memory) (pc : Word) :
    (State.construct m pc).haltInfo = 0x00000000#32 := rfl

end Sys2Proof.Machine
end

