-- ==== Sys2Proof/Laws/Ops.lean ====
section
/-! SUPPORT. One lemma for each shared operation of the meanings: everything it can do. Proofs cite these and do not
unfold the operation. -/

namespace Sys2Proof.Machine

/-- Everything a jump does (R119, R120). -/
theorem jumpAndLink_spec (rd : RegIdx) (target : Word) (s : State) :
    (jumpAndLink rd target s).pc = target ∧ (jumpAndLink rd target s).mem = s.mem ∧
      (jumpAndLink rd target s).runState = s.runState ∧ (jumpAndLink rd target s).haltCause = s.haltCause ∧
      (jumpAndLink rd target s).haltInfo = s.haltInfo ∧
      ∀ j, (jumpAndLink rd target s).reg j = if j = rd ∧ j ≠ 0#5 then s.pc + 4#32 else s.reg j := by
  refine ⟨rfl, ?_, ?_, ?_, ?_, fun j => ?_⟩ <;> simp [jumpAndLink, linkAddress, State.reg_setReg]

/-- Everything a branch does (R122): it sets the pc and nothing else. -/
theorem branch_cases (k : BranchKind) (rs1 rs2 : RegIdx) (imm : Word) (s : State) :
    (branchTaken k (s.reg rs1) (s.reg rs2) = true ∧ branch k rs1 rs2 imm s = s.setPc (s.pc + imm)) ∨
      (branchTaken k (s.reg rs1) (s.reg rs2) = false ∧ branch k rs1 rs2 imm s = s.setPc (s.pc + 4#32)) := by
  unfold branch
  cases h : branchTaken k (s.reg rs1) (s.reg rs2)
  · exact .inr ⟨rfl, rfl⟩
  · exact .inl ⟨rfl, rfl⟩

/-- Everything a load does (R129): it completes when its bytes are inside memory and else halts the hart. -/
theorem load_cases (w : Width) (e : Extension) (rd rs1 : RegIdx) (imm : Word) (s : State) :
    ((s.reg rs1 + imm).toNat + w.bytes ≤ s.mem.size ∧
        load w e rd rs1 imm s = s.writeResult rd (extend e (s.mem.readBytes (s.reg rs1 + imm).toNat w.bytes))) ∨
      (s.mem.size < (s.reg rs1 + imm).toNat + w.bytes ∧
        load w e rd rs1 imm s = s.raise (.outOfBounds (s.reg rs1 + imm))) := by
  unfold load effectiveAddress
  by_cases h : (s.reg rs1 + imm).toNat + w.bytes ≤ s.mem.size
  · exact .inl ⟨h, by rw [Memory.read_ok h]⟩
  · exact .inr ⟨by omega, by rw [Memory.read_error (by omega)]⟩

/-- Everything a store does (R135): it completes when its bytes are inside memory and else halts the hart. -/
theorem store_cases (w : Width) (rs1 rs2 : RegIdx) (imm : Word) (s : State) :
    ((s.reg rs1 + imm).toNat + w.bytes ≤ s.mem.size ∧
        store w rs1 rs2 imm s =
          (s.setMem (s.mem.writeBytes (s.reg rs1 + imm).toNat w.bytes (s.reg rs2))).advance) ∨
      (s.mem.size < (s.reg rs1 + imm).toNat + w.bytes ∧
        store w rs1 rs2 imm s = s.raise (.outOfBounds (s.reg rs1 + imm))) := by
  unfold store effectiveAddress
  by_cases h : (s.reg rs1 + imm).toNat + w.bytes ≤ s.mem.size
  · exact .inl ⟨h, by rw [Memory.write_ok _ h]⟩
  · exact .inr ⟨by omega, by rw [Memory.write_error _ (by omega)]⟩

/-- What the meaning of an instruction may answer: complete with one register result, set the pc, link and jump, store
inside memory, or halt with OutOfBounds at its data access. -/
def InstrEffect (i : Instr) (s : State) (r : Result) : Prop :=
  (∃ rd v, r = .next (s.writeResult rd v)) ∨
    (∃ t, r = .next (s.setPc t)) ∨
    (∃ rd t, r = .next (jumpAndLink rd t s)) ∨
    (∃ a w v, dataAccess i s = some (a, w) ∧ a.toNat + w.bytes ≤ s.mem.size ∧
      r = .next ((s.setMem (s.mem.writeBytes (k := 32) a.toNat w.bytes v)).advance)) ∨
    (∃ a w, dataAccess i s = some (a, w) ∧ s.mem.size < a.toNat + w.bytes ∧ r = .next (s.raise (.outOfBounds a)))

theorem load_effect {i : Instr} {w : Width} {rs1 : RegIdx} {imm : Word} {s : State} (e : Extension) (rd : RegIdx)
    (hd : dataAccess i s = some (s.reg rs1 + imm, w)) : InstrEffect i s (.next (load w e rd rs1 imm s)) := by
  rcases load_cases w e rd rs1 imm s with ⟨-, h⟩ | ⟨hb, h⟩
  · exact .inl ⟨rd, _, by rw [h]⟩
  · exact .inr (.inr (.inr (.inr ⟨_, w, hd, hb, by rw [h]⟩)))

theorem store_effect {i : Instr} {w : Width} {rs1 : RegIdx} {imm : Word} {s : State} (rs2 : RegIdx)
    (hd : dataAccess i s = some (s.reg rs1 + imm, w)) : InstrEffect i s (.next (store w rs1 rs2 imm s)) := by
  rcases store_cases w rs1 rs2 imm s with ⟨hb, h⟩ | ⟨hb, h⟩
  · exact .inr (.inr (.inr (.inl ⟨_, w, _, hd, hb, by rw [h]⟩)))
  · exact .inr (.inr (.inr (.inr ⟨_, w, hd, hb, by rw [h]⟩)))

theorem branch_effect {i : Instr} {s : State} (k : BranchKind) (rs1 rs2 : RegIdx) (imm : Word) :
    InstrEffect i s (.next (branch k rs1 rs2 imm s)) := by
  rcases branch_cases k rs1 rs2 imm s with ⟨-, h⟩ | ⟨-, h⟩ <;> exact .inr (.inl ⟨_, by rw [h]⟩)

/-- Every instruction has one of the five effects. -/
theorem exec_cases (i : Instr) (s : State) : InstrEffect i s (exec i s) := by
  cases i with
  | lui | auipc => exact .inl ⟨_, _, rfl⟩
  | jal | jalr => exact .inr (.inr (.inl ⟨_, _, rfl⟩))
  | beq | bne | blt | bge | bltu | bgeu => exact branch_effect ..
  | lb | lh | lw | lbu | lhu => exact load_effect _ _ rfl
  | sb | sh | sw => exact store_effect _ rfl
  | addi | slti | sltiu | xori | ori | andi | slli | srli | srai => exact .inl ⟨_, _, rfl⟩
  | add | sub | sll | slt | sltu | xor | srl | sra | or | and => exact .inl ⟨_, _, rfl⟩

end Sys2Proof.Machine
end

