-- ==== Sys2Proof/Laws/PerInstr.lean ====
section
/-! SUPPORT. For every instruction: its word meets the match and mask of its own row of the table of R67. -/

namespace Sys2Proof.Laws.TableRow

/-- The word of the instruction is a word of the instruction's row (R67). -/
def Statement (i : Instr) : Prop := i.encode &&& i.rowMask = i.rowMatch

theorem encodeR_masked (f7 : BitVec 7) (f3 : BitVec 3) (rd rs1 rs2 : RegIdx) :
    encodeR f7 f3 rd rs1 rs2 &&& 0xFE00707F#32 = (place f7 25 ||| place f3 12 ||| place 0b0110011#7 0) := by
  unfold encodeR place
  ext i hi
  interval_cases i <;> simp

theorem encodeShift_masked (f7 : BitVec 7) (f3 : BitVec 3) (rd rs1 : RegIdx) (shamt : BitVec 5) :
    encodeShift f7 f3 rd rs1 shamt &&& 0xFE00707F#32 = (place f7 25 ||| place f3 12 ||| place 0b0010011#7 0) := by
  unfold encodeShift place
  ext i hi
  interval_cases i <;> simp

theorem encodeI_masked (op : BitVec 7) (f3 : BitVec 3) (rd rs1 : RegIdx) (imm : Word) :
    encodeI op f3 rd rs1 imm &&& 0x0000707F#32 = (place f3 12 ||| place op 0) := by
  unfold encodeI place
  ext i hi
  interval_cases i <;> simp

theorem encodeS_masked (f3 : BitVec 3) (rs1 rs2 : RegIdx) (imm : Word) :
    encodeS f3 rs1 rs2 imm &&& 0x0000707F#32 = (place f3 12 ||| place 0b0100011#7 0) := by
  unfold encodeS place
  ext i hi
  interval_cases i <;> simp

theorem encodeB_masked (f3 : BitVec 3) (rs1 rs2 : RegIdx) (imm : Word) :
    encodeB f3 rs1 rs2 imm &&& 0x0000707F#32 = (place f3 12 ||| place 0b1100011#7 0) := by
  unfold encodeB place
  ext i hi
  interval_cases i <;> simp

theorem encodeU_masked (op : BitVec 7) (rd : RegIdx) (imm : Word) :
    encodeU op rd imm &&& 0x0000007F#32 = (place op 0) := by
  unfold encodeU place
  ext i hi
  interval_cases i <;> simp

theorem encodeJ_masked (rd : RegIdx) (imm : Word) :
    encodeJ rd imm &&& 0x0000007F#32 = (place 0b1101111#7 0) := by
  unfold encodeJ place
  ext i hi
  interval_cases i <;> simp

theorem lui (rd : RegIdx) (imm : Word) : Statement (.lui rd imm) := (encodeU_masked ..).trans rfl
theorem auipc (rd : RegIdx) (imm : Word) : Statement (.auipc rd imm) := (encodeU_masked ..).trans rfl
theorem jal (rd : RegIdx) (imm : Word) : Statement (.jal rd imm) := (encodeJ_masked ..).trans rfl
theorem jalr (rd rs1 : RegIdx) (imm : Word) : Statement (.jalr rd rs1 imm) := (encodeI_masked ..).trans rfl
theorem beq (rs1 rs2 : RegIdx) (imm : Word) : Statement (.beq rs1 rs2 imm) := (encodeB_masked ..).trans rfl
theorem bne (rs1 rs2 : RegIdx) (imm : Word) : Statement (.bne rs1 rs2 imm) := (encodeB_masked ..).trans rfl
theorem blt (rs1 rs2 : RegIdx) (imm : Word) : Statement (.blt rs1 rs2 imm) := (encodeB_masked ..).trans rfl
theorem bge (rs1 rs2 : RegIdx) (imm : Word) : Statement (.bge rs1 rs2 imm) := (encodeB_masked ..).trans rfl
theorem bltu (rs1 rs2 : RegIdx) (imm : Word) : Statement (.bltu rs1 rs2 imm) := (encodeB_masked ..).trans rfl
theorem bgeu (rs1 rs2 : RegIdx) (imm : Word) : Statement (.bgeu rs1 rs2 imm) := (encodeB_masked ..).trans rfl
theorem lb (rd rs1 : RegIdx) (imm : Word) : Statement (.lb rd rs1 imm) := (encodeI_masked ..).trans rfl
theorem lh (rd rs1 : RegIdx) (imm : Word) : Statement (.lh rd rs1 imm) := (encodeI_masked ..).trans rfl
theorem lw (rd rs1 : RegIdx) (imm : Word) : Statement (.lw rd rs1 imm) := (encodeI_masked ..).trans rfl
theorem lbu (rd rs1 : RegIdx) (imm : Word) : Statement (.lbu rd rs1 imm) := (encodeI_masked ..).trans rfl
theorem lhu (rd rs1 : RegIdx) (imm : Word) : Statement (.lhu rd rs1 imm) := (encodeI_masked ..).trans rfl
theorem sb (rs1 rs2 : RegIdx) (imm : Word) : Statement (.sb rs1 rs2 imm) := (encodeS_masked ..).trans rfl
theorem sh (rs1 rs2 : RegIdx) (imm : Word) : Statement (.sh rs1 rs2 imm) := (encodeS_masked ..).trans rfl
theorem sw (rs1 rs2 : RegIdx) (imm : Word) : Statement (.sw rs1 rs2 imm) := (encodeS_masked ..).trans rfl
theorem addi (rd rs1 : RegIdx) (imm : Word) : Statement (.addi rd rs1 imm) := (encodeI_masked ..).trans rfl
theorem slti (rd rs1 : RegIdx) (imm : Word) : Statement (.slti rd rs1 imm) := (encodeI_masked ..).trans rfl
theorem sltiu (rd rs1 : RegIdx) (imm : Word) : Statement (.sltiu rd rs1 imm) := (encodeI_masked ..).trans rfl
theorem xori (rd rs1 : RegIdx) (imm : Word) : Statement (.xori rd rs1 imm) := (encodeI_masked ..).trans rfl
theorem ori (rd rs1 : RegIdx) (imm : Word) : Statement (.ori rd rs1 imm) := (encodeI_masked ..).trans rfl
theorem andi (rd rs1 : RegIdx) (imm : Word) : Statement (.andi rd rs1 imm) := (encodeI_masked ..).trans rfl
theorem slli (rd rs1 : RegIdx) (shamt : BitVec 5) : Statement (.slli rd rs1 shamt) := (encodeShift_masked ..).trans rfl
theorem srli (rd rs1 : RegIdx) (shamt : BitVec 5) : Statement (.srli rd rs1 shamt) := (encodeShift_masked ..).trans rfl
theorem srai (rd rs1 : RegIdx) (shamt : BitVec 5) : Statement (.srai rd rs1 shamt) := (encodeShift_masked ..).trans rfl
theorem add (rd rs1 rs2 : RegIdx) : Statement (.add rd rs1 rs2) := (encodeR_masked ..).trans rfl
theorem sub (rd rs1 rs2 : RegIdx) : Statement (.sub rd rs1 rs2) := (encodeR_masked ..).trans rfl
theorem sll (rd rs1 rs2 : RegIdx) : Statement (.sll rd rs1 rs2) := (encodeR_masked ..).trans rfl
theorem slt (rd rs1 rs2 : RegIdx) : Statement (.slt rd rs1 rs2) := (encodeR_masked ..).trans rfl
theorem sltu (rd rs1 rs2 : RegIdx) : Statement (.sltu rd rs1 rs2) := (encodeR_masked ..).trans rfl
theorem xor (rd rs1 rs2 : RegIdx) : Statement (.xor rd rs1 rs2) := (encodeR_masked ..).trans rfl
theorem srl (rd rs1 rs2 : RegIdx) : Statement (.srl rd rs1 rs2) := (encodeR_masked ..).trans rfl
theorem sra (rd rs1 rs2 : RegIdx) : Statement (.sra rd rs1 rs2) := (encodeR_masked ..).trans rfl
theorem or (rd rs1 rs2 : RegIdx) : Statement (.or rd rs1 rs2) := (encodeR_masked ..).trans rfl
theorem and (rd rs1 rs2 : RegIdx) : Statement (.and rd rs1 rs2) := (encodeR_masked ..).trans rfl

end Sys2Proof.Laws.TableRow
end

