-- ==== Sys2Proof/Laws/Step.lean ====
section
/-! SUPPORT. Inversion of the decoder's two stages, of the fetch and of one Step. -/

namespace Sys2Proof

/-- Decoding answers an instruction exactly when the opcode is mapped and the function bits select it (R64, R67). -/
theorem decode_ok_iff (raw : Word) (i : Instr) :
    decode raw = .ok i ↔ (decodeFields raw).legal = true ∧ select (decodeFields raw) = some i := by
  unfold decode
  split
  · next h => cases hs : select (decodeFields raw) <;> simp [h]
  · next h => simp [h]

/-- Decoding rejects a word exactly when the opcode is unmapped or the function bits select nothing (R65, R69). -/
theorem decode_reject_iff (raw : Word) :
    (∀ i, decode raw ≠ .ok i) ↔ (decodeFields raw).legal = false ∨ select (decodeFields raw) = none := by
  simp only [ne_eq, decode_ok_iff, not_and]
  cases hl : (decodeFields raw).legal <;> cases hs : select (decodeFields raw) <;> simp

/-- The word is passed through (R3). -/
@[simp] theorem decodeFields_raw (raw : Word) : (decodeFields raw).raw = raw := by
  unfold decodeFields; split <;> rfl

namespace Machine

theorem low_bits_zero_iff (pc : Word) : pc.extractLsb' 0 2 = 0b00#2 ↔ pc.toNat % 4 = 0 := by
  rw [← BitVec.toNat_inj]
  simp

/-- A fetch from a pc that is a multiple of 4 with all four bytes in memory decodes the word there (R44, R45). -/
theorem fetch_word {s : State} (h2 : s.pc.toNat % 4 = 0) (h3 : s.pc.toNat + 4 ≤ s.mem.size) :
    fetch s =
      if (decodeFields (s.mem.wordAt s.pc.toNat)).legal then .instruction (decodeFields (s.mem.wordAt s.pc.toNat))
      else .fault (.illegalInstruction (s.mem.wordAt s.pc.toNat)) := by
  have hr : s.mem.read s.pc .word = .ok (s.mem.readBytes s.pc.toNat 4) := Memory.read_ok h3
  have h1 : ¬s.mem.size ≤ s.pc.toNat := by omega
  unfold fetch
  rw [if_neg h1, if_neg (by simp [(low_bits_zero_iff s.pc).mpr h2]), hr]
  rfl

/-- A Step of a Running hart, test by test (R23, R44, R153). -/
theorem stepRunning_cases (s : State) :
    (s.mem.size ≤ s.pc.toNat ∧ stepRunning s = .next s.endProgram) ∨
      (s.pc.toNat < s.mem.size ∧ s.pc.toNat % 4 ≠ 0 ∧ stepRunning s = .next (s.raise (.fetchMisaligned s.pc))) ∨
      (s.pc.toNat < s.mem.size ∧ s.pc.toNat % 4 = 0 ∧ s.mem.size < s.pc.toNat + 4 ∧
        stepRunning s = .next (s.raise (.outOfBounds s.pc))) ∨
      (s.pc.toNat % 4 = 0 ∧ s.pc.toNat + 4 ≤ s.mem.size ∧ (∀ i, decode (s.mem.wordAt s.pc.toNat) ≠ .ok i) ∧
        stepRunning s = .next (s.raise (.illegalInstruction (s.mem.wordAt s.pc.toNat)))) ∨
      (∃ i, s.pc.toNat % 4 = 0 ∧ s.pc.toNat + 4 ≤ s.mem.size ∧ decode (s.mem.wordAt s.pc.toNat) = .ok i ∧
        stepRunning s = exec i s) := by
  by_cases h1 : s.mem.size ≤ s.pc.toNat
  · exact .inl ⟨h1, by simp [stepRunning, fetch, h1]⟩
  by_cases h2 : s.pc.toNat % 4 = 0
  · have h2' := (low_bits_zero_iff s.pc).mpr h2
    by_cases h3 : s.pc.toNat + 4 ≤ s.mem.size
    · cases hl : (decodeFields (s.mem.wordAt s.pc.toNat)).legal
      · refine .inr (.inr (.inr (.inl ⟨h2, h3, (decode_reject_iff _).mpr (.inl hl), ?_⟩)))
        simp [stepRunning, fetch_word h2 h3, hl]
      · cases hs : select (decodeFields (s.mem.wordAt s.pc.toNat))
        · refine .inr (.inr (.inr (.inl ⟨h2, h3, (decode_reject_iff _).mpr (.inr hs), ?_⟩)))
          simp [stepRunning, fetch_word h2 h3, hl, execute, hs]
        · refine .inr (.inr (.inr (.inr ⟨_, h2, h3, (decode_ok_iff _ _).mpr ⟨hl, hs⟩, ?_⟩)))
          simp [stepRunning, fetch_word h2 h3, hl, execute, hs]
    · have hr : s.mem.read s.pc .word = .error (.outOfBounds s.pc) :=
        Memory.read_error (by simp [Width.bytes]; omega)
      exact .inr (.inr (.inl ⟨by omega, h2, by omega, by simp [stepRunning, fetch, h1, h2', hr]⟩))
  · have h2' := mt (low_bits_zero_iff s.pc).mp h2
    exact .inr (.inl ⟨by omega, h2, by simp [stepRunning, fetch, h1, h2']⟩)

@[simp] theorem step_halted {s : State} (h : s.runState = .halted) : step s = .next s := by simp [step, h]

theorem step_running {s : State} (h : s.runState = .running) : step s = stepRunning s := by simp [step, h]

end Machine

end Sys2Proof
end

