-- ==== Sys2Proof/Tests/Slice0.lean ====
section
/-! SUPPORT. The model's own tests: the ill-formed terms each check refuses, the decoding of a word of every
instruction written out from its layout, one Step of each instruction with the results spec/95_test_vectors.md gives,
and for each obligation with hypotheses a state and operands that meet them together. -/

namespace Sys2Proof.Tests

open Sys2Proof Sys2Proof.Machine Sys2Proof.Claims

/-! ### WellFormed: each check refuses an ill-formed term, and admits the ends of its range (R56 to R60) -/

theorem test_wf_imm12 : (Instr.addi 1#5 1#5 2048#32).wellFormed = false ∧ (Instr.sw 1#5 1#5 0xFFFFF7FF#32).wellFormed = false ∧
    (Instr.addi 1#5 1#5 2047#32).wellFormed = true ∧ (Instr.sw 1#5 1#5 0xFFFFF800#32).wellFormed = true := by decide
theorem test_wf_imm13_range : (Instr.beq 1#5 1#5 4096#32).wellFormed = false ∧ (Instr.beq 1#5 1#5 0xFFFFEFFE#32).wellFormed = false ∧
    (Instr.beq 1#5 1#5 4094#32).wellFormed = true ∧ (Instr.beq 1#5 1#5 0xFFFFF000#32).wellFormed = true := by decide
theorem test_wf_imm13_even : (Instr.beq 1#5 1#5 3#32).wellFormed = false := by decide
theorem test_wf_immUpper : (Instr.lui 1#5 0x00001800#32).wellFormed = false ∧ (Instr.lui 1#5 0xFFFFF000#32).wellFormed = true := by decide
theorem test_wf_imm21_range : (Instr.jal 1#5 0x00100000#32).wellFormed = false ∧ (Instr.jal 1#5 0xFFEFFFFE#32).wellFormed = false ∧
    (Instr.jal 1#5 0x000FFFFE#32).wellFormed = true ∧ (Instr.jal 1#5 0xFFF00000#32).wellFormed = true := by decide
theorem test_wf_imm21_even : (Instr.jal 1#5 1#32).wellFormed = false := by decide

/-! ### Decoding: one word of every instruction, field by field from its layout (R55 to R60, R67) -/

theorem test_decode_add : decode 0b0000000_11101_11110_000_11111_0110011#32 = .ok (.add 31#5 30#5 29#5) := by decide
theorem test_decode_sub : decode 0b0100000_11101_11110_000_11111_0110011#32 = .ok (.sub 31#5 30#5 29#5) := by decide
theorem test_decode_sll : decode 0b0000000_11101_11110_001_11111_0110011#32 = .ok (.sll 31#5 30#5 29#5) := by decide
theorem test_decode_slt : decode 0b0000000_11101_11110_010_11111_0110011#32 = .ok (.slt 31#5 30#5 29#5) := by decide
theorem test_decode_sltu : decode 0b0000000_11101_11110_011_11111_0110011#32 = .ok (.sltu 31#5 30#5 29#5) := by decide
theorem test_decode_xor : decode 0b0000000_11101_11110_100_11111_0110011#32 = .ok (.xor 31#5 30#5 29#5) := by decide
theorem test_decode_srl : decode 0b0000000_11101_11110_101_11111_0110011#32 = .ok (.srl 31#5 30#5 29#5) := by decide
theorem test_decode_sra : decode 0b0100000_11101_11110_101_11111_0110011#32 = .ok (.sra 31#5 30#5 29#5) := by decide
theorem test_decode_or : decode 0b0000000_11101_11110_110_11111_0110011#32 = .ok (.or 31#5 30#5 29#5) := by decide
theorem test_decode_and : decode 0b0000000_11101_11110_111_11111_0110011#32 = .ok (.and 31#5 30#5 29#5) := by decide
theorem test_decode_addi : decode 0b111111111110_00001_000_00011_0010011#32 = .ok (.addi 3#5 1#5 0xFFFFFFFE#32) := by decide
theorem test_decode_slti : decode 0b111111111110_00001_010_00011_0010011#32 = .ok (.slti 3#5 1#5 0xFFFFFFFE#32) := by decide
theorem test_decode_sltiu : decode 0b111111111110_00001_011_00011_0010011#32 = .ok (.sltiu 3#5 1#5 0xFFFFFFFE#32) := by decide
theorem test_decode_xori : decode 0b111111111110_00001_100_00011_0010011#32 = .ok (.xori 3#5 1#5 0xFFFFFFFE#32) := by decide
theorem test_decode_ori : decode 0b111111111110_00001_110_00011_0010011#32 = .ok (.ori 3#5 1#5 0xFFFFFFFE#32) := by decide
theorem test_decode_andi : decode 0b111111111110_00001_111_00011_0010011#32 = .ok (.andi 3#5 1#5 0xFFFFFFFE#32) := by decide
theorem test_decode_slli : decode 0b0000000_00100_00001_001_00011_0010011#32 = .ok (.slli 3#5 1#5 4#5) := by decide
theorem test_decode_srli : decode 0b0000000_00100_00001_101_00011_0010011#32 = .ok (.srli 3#5 1#5 4#5) := by decide
theorem test_decode_srai : decode 0b0100000_00100_00001_101_00011_0010011#32 = .ok (.srai 3#5 1#5 4#5) := by decide
theorem test_decode_lui : decode 0b11011110101011011100_00101_0110111#32 = .ok (.lui 5#5 0xDEADC000#32) := by decide
theorem test_decode_auipc : decode 0b00000000000000000001_00101_0010111#32 = .ok (.auipc 5#5 0x00001000#32) := by decide
/-- imm[20] 1, imm[10:1] 1111111100, imm[11] 1, imm[19:12] 11111111: -8. -/
theorem test_decode_jal : decode 0b1_1111111100_1_11111111_00000_1101111#32 = .ok (.jal 0#5 0xFFFFFFF8#32) := by decide
theorem test_decode_jalr : decode 0b000000000100_00101_000_00001_1100111#32 = .ok (.jalr 1#5 5#5 4#32) := by decide
/-- imm[12] 1, imm[10:5] 111111, imm[4:1] 1000, imm[11] 1: -16. -/
theorem test_decode_beq : decode 0b1_111111_00010_00001_000_1000_1_1100011#32 = .ok (.beq 1#5 2#5 0xFFFFFFF0#32) := by decide
theorem test_decode_bne : decode 0b1_111111_00010_00001_001_1000_1_1100011#32 = .ok (.bne 1#5 2#5 0xFFFFFFF0#32) := by decide
theorem test_decode_blt : decode 0b1_111111_00010_00001_100_1000_1_1100011#32 = .ok (.blt 1#5 2#5 0xFFFFFFF0#32) := by decide
theorem test_decode_bge : decode 0b1_111111_00010_00001_101_1000_1_1100011#32 = .ok (.bge 1#5 2#5 0xFFFFFFF0#32) := by decide
theorem test_decode_bltu : decode 0b1_111111_00010_00001_110_1000_1_1100011#32 = .ok (.bltu 1#5 2#5 0xFFFFFFF0#32) := by decide
theorem test_decode_bgeu : decode 0b1_111111_00010_00001_111_1000_1_1100011#32 = .ok (.bgeu 1#5 2#5 0xFFFFFFF0#32) := by decide
theorem test_decode_lb : decode 0b100000000001_00001_000_00011_0000011#32 = .ok (.lb 3#5 1#5 0xFFFFF801#32) := by decide
theorem test_decode_lh : decode 0b100000000001_00001_001_00011_0000011#32 = .ok (.lh 3#5 1#5 0xFFFFF801#32) := by decide
theorem test_decode_lw : decode 0b100000000001_00001_010_00011_0000011#32 = .ok (.lw 3#5 1#5 0xFFFFF801#32) := by decide
theorem test_decode_lbu : decode 0b100000000001_00001_100_00011_0000011#32 = .ok (.lbu 3#5 1#5 0xFFFFF801#32) := by decide
theorem test_decode_lhu : decode 0b100000000001_00001_101_00011_0000011#32 = .ok (.lhu 3#5 1#5 0xFFFFF801#32) := by decide
theorem test_decode_sb : decode 0b1111111_00010_00001_000_11100_0100011#32 = .ok (.sb 1#5 2#5 0xFFFFFFFC#32) := by decide
theorem test_decode_sh : decode 0b1111111_00010_00001_001_11100_0100011#32 = .ok (.sh 1#5 2#5 0xFFFFFFFC#32) := by decide
theorem test_decode_sw : decode 0b1111111_00010_00001_010_11100_0100011#32 = .ok (.sw 1#5 2#5 0xFFFFFFFC#32) := by decide

/-! ### One Step of each instruction: spec/95_test_vectors.md sections 2.4 to 2.10 -/

/-- The set-up of section 2: the word at pc = 0x100, MEM_LEN = 0x200, `x1` and `x2` given. -/
def demo (word x1 x2 : Word) : State :=
  ((State.construct (Memory.writeBytes { size := 0x200, cells := [] } 0x100 4 word) 0x00000100#32).setReg 1#5 x1).setReg
    2#5 x2

/-- The set-up of section 2.9: as `demo`, with the bytes 80 FF 80 91 at 0x180. -/
def demoData (word x1 x2 : Word) : State :=
  (demo word x1 x2).setMem ((demo word x1 x2).mem.writeBytes 0x180 4 0x9180FF80#32)

/-- The state a Step answers. -/
def after (s : State) : State :=
  match step s with
  | .next t => t
  | .fault _ => s
  | .refused _ => s

/-- A register and the pc after a Step. -/
def regPc (s : State) (i : RegIdx) : Word × Word := ((after s).reg i, (after s).pc)

/-- The bytes at 0x180 to 0x183 and the pc after a Step. -/
def wordPc (s : State) : Word × Word := ((after s).mem.wordAt 0x180, (after s).pc)

/-- The halt record and the pc after a Step. -/
def haltPc (s : State) : RunState × HaltCause × Word × Word :=
  ((after s).runState, (after s).haltCause, (after s).haltInfo, (after s).pc)

theorem test_add : regPc (demo 0x002081B3#32 0x80000001#32 0x00000004#32) 3#5 = (0x80000005#32, 0x00000104#32) := by decide
theorem test_sub : regPc (demo 0x402081B3#32 0x80000001#32 0x00000004#32) 3#5 = (0x7FFFFFFD#32, 0x00000104#32) := by decide
theorem test_sll : regPc (demo 0x002091B3#32 0x80000001#32 0x00000004#32) 3#5 = (0x00000010#32, 0x00000104#32) := by decide
theorem test_slt : regPc (demo 0x0020A1B3#32 0x80000001#32 0x00000004#32) 3#5 = (0x00000001#32, 0x00000104#32) := by decide
theorem test_sltu : regPc (demo 0x0020B1B3#32 0x80000001#32 0x00000004#32) 3#5 = (0x00000000#32, 0x00000104#32) := by decide
theorem test_xor : regPc (demo 0x0020C1B3#32 0x80000001#32 0x00000004#32) 3#5 = (0x80000005#32, 0x00000104#32) := by decide
theorem test_srl : regPc (demo 0x0020D1B3#32 0x80000001#32 0x00000004#32) 3#5 = (0x08000000#32, 0x00000104#32) := by decide
theorem test_sra : regPc (demo 0x4020D1B3#32 0x80000001#32 0x00000004#32) 3#5 = (0xF8000000#32, 0x00000104#32) := by decide
theorem test_or : regPc (demo 0x0020E1B3#32 0x80000001#32 0x00000004#32) 3#5 = (0x80000005#32, 0x00000104#32) := by decide
theorem test_and : regPc (demo 0x0020F1B3#32 0x80000001#32 0x00000004#32) 3#5 = (0x00000000#32, 0x00000104#32) := by decide
theorem test_add_to_x0 : regPc (demo 0x00208033#32 0x80000001#32 0x00000004#32) 0#5 = (0x00000000#32, 0x00000104#32) := by decide
theorem test_add_sources_read_first : regPc (demo 0x001080B3#32 0x80000000#32 0x00000000#32) 1#5 = (0x00000000#32, 0x00000104#32) := by decide
theorem test_sll_amount_low_bits : regPc (demo 0x002091B3#32 0x00000001#32 0x00000021#32) 3#5 = (0x00000002#32, 0x00000104#32) := by decide
theorem test_sra_amount_low_bits : regPc (demo 0x4020D1B3#32 0x80000000#32 0xFFFFFFFF#32) 3#5 = (0xFFFFFFFF#32, 0x00000104#32) := by decide
theorem test_addi : regPc (demo 0xFFF08193#32 0x80000001#32 0x00000000#32) 3#5 = (0x80000000#32, 0x00000104#32) := by decide
theorem test_slti : regPc (demo 0xFFF0A193#32 0x80000001#32 0x00000000#32) 3#5 = (0x00000001#32, 0x00000104#32) := by decide
theorem test_sltiu : regPc (demo 0xFFF0B193#32 0x80000001#32 0x00000000#32) 3#5 = (0x00000001#32, 0x00000104#32) := by decide
theorem test_xori : regPc (demo 0xFFF0C193#32 0x80000001#32 0x00000000#32) 3#5 = (0x7FFFFFFE#32, 0x00000104#32) := by decide
theorem test_ori : regPc (demo 0x8000E193#32 0x80000001#32 0x00000000#32) 3#5 = (0xFFFFF801#32, 0x00000104#32) := by decide
theorem test_andi : regPc (demo 0xF000F193#32 0x80000001#32 0x00000000#32) 3#5 = (0x80000000#32, 0x00000104#32) := by decide
theorem test_slli : regPc (demo 0x01F09193#32 0x80000001#32 0x00000000#32) 3#5 = (0x80000000#32, 0x00000104#32) := by decide
theorem test_srli : regPc (demo 0x01F0D193#32 0x80000001#32 0x00000000#32) 3#5 = (0x00000001#32, 0x00000104#32) := by decide
theorem test_srai : regPc (demo 0x41F0D193#32 0x80000001#32 0x00000000#32) 3#5 = (0xFFFFFFFF#32, 0x00000104#32) := by decide
theorem test_addi_wraps : regPc (demo 0x00108093#32 0xFFFFFFFF#32 0x00000000#32) 1#5 = (0x00000000#32, 0x00000104#32) := by decide
theorem test_lui : regPc (demo 0xDEADC2B7#32 0x00000000#32 0x00000000#32) 5#5 = (0xDEADC000#32, 0x00000104#32) := by decide
theorem test_auipc : regPc (demo 0xFFFFF297#32 0x00000000#32 0x00000000#32) 5#5 = (0xFFFFF100#32, 0x00000104#32) := by decide
theorem test_jal : regPc (demo 0xEFDFF0EF#32 0x00000000#32 0x00000000#32) 1#5 = (0x00000104#32, 0xFFFFFFFC#32) := by decide
theorem test_jal_misaligned_target : regPc (demo 0x002000EF#32 0x00000000#32 0x00000000#32) 1#5 = (0x00000104#32, 0x00000102#32) := by decide
theorem test_jalr_uses_old_register : regPc (demo 0x000080E7#32 0x00000080#32 0x00000000#32) 1#5 = (0x00000104#32, 0x00000080#32) := by decide
theorem test_jalr_clears_bit0 : regPc (demo 0x00008067#32 0x00000083#32 0x00000000#32) 0#5 = (0x00000000#32, 0x00000082#32) := by decide
theorem test_beq_taken_back : regPc (demo 0xFE2088E3#32 7#32 7#32) 1#5 = (7#32, 0x000000F0#32) := by decide
theorem test_beq_not_taken : regPc (demo 0xFE2088E3#32 7#32 8#32) 1#5 = (7#32, 0x00000104#32) := by decide
theorem test_bne_taken : regPc (demo 0x00209463#32 5#32 6#32) 1#5 = (5#32, 0x00000108#32) := by decide
theorem test_bne_not_taken : regPc (demo 0x00209463#32 5#32 5#32) 1#5 = (5#32, 0x00000104#32) := by decide
theorem test_blt_taken : regPc (demo 0x0020C463#32 0xFFFFFFFF#32 1#32) 1#5 = (0xFFFFFFFF#32, 0x00000108#32) := by decide
theorem test_blt_equal : regPc (demo 0x0020C463#32 5#32 5#32) 1#5 = (5#32, 0x00000104#32) := by decide
theorem test_bge_equal : regPc (demo 0x0020D463#32 5#32 5#32) 1#5 = (5#32, 0x00000108#32) := by decide
theorem test_bge_not_taken : regPc (demo 0x0020D463#32 0x80000000#32 0#32) 1#5 = (0x80000000#32, 0x00000104#32) := by decide
theorem test_bltu_taken : regPc (demo 0x0020E463#32 1#32 0xFFFFFFFF#32) 1#5 = (1#32, 0x00000108#32) := by decide
theorem test_bltu_not_taken : regPc (demo 0x0020E463#32 0xFFFFFFFF#32 1#32) 1#5 = (0xFFFFFFFF#32, 0x00000104#32) := by decide
theorem test_bgeu_equal : regPc (demo 0x0020F463#32 5#32 5#32) 1#5 = (5#32, 0x00000108#32) := by decide
theorem test_bgeu_not_taken : regPc (demo 0x0020F463#32 0#32 1#32) 1#5 = (0#32, 0x00000104#32) := by decide
theorem test_lb : regPc (demoData 0x00308183#32 0x00000180#32 0x00000000#32) 3#5 = (0xFFFFFF91#32, 0x00000104#32) := by decide
theorem test_lbu : regPc (demoData 0x0030C183#32 0x00000180#32 0x00000000#32) 3#5 = (0x00000091#32, 0x00000104#32) := by decide
theorem test_lh_odd : regPc (demoData 0x00109183#32 0x00000180#32 0x00000000#32) 3#5 = (0xFFFF80FF#32, 0x00000104#32) := by decide
theorem test_lhu_odd : regPc (demoData 0x0010D183#32 0x00000180#32 0x00000000#32) 3#5 = (0x000080FF#32, 0x00000104#32) := by decide
theorem test_lw_misaligned : regPc (demoData 0x0010A183#32 0x00000180#32 0x00000000#32) 3#5 = (0x009180FF#32, 0x00000104#32) := by decide
theorem test_lw_base_is_destination : regPc (demoData 0x0000A083#32 0x00000180#32 0x00000000#32) 1#5 = (0x9180FF80#32, 0x00000104#32) := by decide
theorem test_sb : wordPc (demoData 0x002081A3#32 0x00000180#32 0x12345678#32) = (0x7880FF80#32, 0x00000104#32) := by decide
theorem test_sh_odd : wordPc (demoData 0x002090A3#32 0x00000180#32 0x12345678#32) = (0x91567880#32, 0x00000104#32) := by decide
theorem test_sw : wordPc (demoData 0x0020A023#32 0x00000180#32 0x12345678#32) = (0x12345678#32, 0x00000104#32) := by decide
theorem test_lw_out_of_bounds : haltPc (demo 0x0000A183#32 0x000001FD#32 0#32) =
    (.halted, .outOfBounds, 0x000001FD#32, 0x00000100#32) := by decide
theorem test_lw_to_x0_out_of_bounds : haltPc (demo 0x0000A003#32 0x00000200#32 0#32) =
    (.halted, .outOfBounds, 0x00000200#32, 0x00000100#32) := by decide
theorem test_sw_no_wrap : haltPc (demo 0x0020A023#32 0xFFFFFFFE#32 1#32) =
    (.halted, .outOfBounds, 0xFFFFFFFE#32, 0x00000100#32) := by decide
theorem test_sw_out_of_bounds_writes_nothing :
    (after (demo 0x0020A023#32 0x000001FD#32 0x12345678#32)).mem = (demo 0x0020A023#32 0x000001FD#32 0x12345678#32).mem := by
  decide

/-! ### Illegal words and fetch: sections 2.11 and 2.12 -/

theorem test_ecall_illegal : haltPc (demo 0x00000073#32 5#32 7#32) =
    (.halted, .illegalInstruction, 0x00000073#32, 0x00000100#32) := by decide
theorem test_mul_illegal : haltPc (demo 0x022081B3#32 5#32 7#32) =
    (.halted, .illegalInstruction, 0x022081B3#32, 0x00000100#32) := by decide
theorem test_slli_by_32_illegal : haltPc (demo 0x02009193#32 5#32 7#32) =
    (.halted, .illegalInstruction, 0x02009193#32, 0x00000100#32) := by decide
theorem test_end_before_alignment : haltPc ((demo 0#32 0#32 0#32).setPc 0x00000203#32) =
    (.halted, .endOfProgram, 0x00000203#32, 0x00000203#32) := by decide
theorem test_fetch_misaligned : haltPc ((demo 0#32 0#32 0#32).setPc 0x000001FF#32) =
    (.halted, .fetchMisaligned, 0x000001FF#32, 0x000001FF#32) := by decide
theorem test_fetch_word_past_end : haltPc ((State.construct { size := 0x1FF, cells := [] } 0x000001FC#32)) =
    (.halted, .outOfBounds, 0x000001FC#32, 0x000001FC#32) := by decide
theorem test_alignment_before_bounds : haltPc ((State.construct { size := 0x1FF, cells := [] } 0x000001FD#32)) =
    (.halted, .fetchMisaligned, 0x000001FD#32, 0x000001FD#32) := by decide
theorem test_empty_memory_ends : haltPc ((resetWith [] 0#32)) =
    (.halted, .endOfProgram, 0x00000000#32, 0x00000000#32) := by decide
theorem test_halted_step : after ((demo 0x00000013#32 0#32 0#32).halt .outOfBounds 9#32) =
    (demo 0x00000013#32 0#32 0#32).halt .outOfBounds 9#32 := by decide
/-- Section 2.3: the 8- and 16-byte widths of the port. -/
theorem test_port_quad_word :
    ((Memory.ofBytes [0xEF#8, 0xBE#8, 0xAD#8, 0xDE#8, 0#8, 0x78#8, 0x56#8, 0#8, 8#8, 7#8, 6#8, 5#8, 4#8, 3#8, 2#8, 1#8]).read
      0#32 .quadWord).toOption.map BitVec.toNat = some 0x010203040506070800567800DEADBEEF := by decide
theorem test_port_double_word :
    ((Memory.ofBytes (List.replicate 16 0#8)).write 8#32 .doubleWord 0x0102030405060708#64).toOption =
      some (Memory.ofBytes [0#8, 0#8, 0#8, 0#8, 0#8, 0#8, 0#8, 0#8, 8#8, 7#8, 6#8, 5#8, 4#8, 3#8, 2#8, 1#8]) := by decide
theorem test_probe_from_reset : regPc (State.reset.withFetchWord 32 0x00500093) 1#5 = (5#32, 4#32) := by decide
theorem test_probe_decodes : decodeTableWord 32 0x00500093 = some (.addi 1#5 0#5 5#32) := by decide
theorem test_reset_mem_wf : State.reset.mem.wf = true := by decide

/-! ### Hypotheses that can be met: one theorem or more for each obligation that has hypotheses -/

theorem witness_DecodeAfterEncode : (Instr.beq 31#5 0#5 0xFFFFF000#32).wellFormed = true := by decide
theorem witness_EncodeAfterDecode : decode 0xFFFFFFEF#32 = .ok (.jal 31#5 0xFFFFFFFE#32) := by decide
theorem witness_DecodeFollowsTable : decode 0x002081B3#32 = .ok (.add 3#5 1#5 2#5) ∧
    0x002081B3#32 &&& (Instr.add 0#5 0#5 0#5).rowMask = (Instr.add 0#5 0#5 0#5).rowMatch ∧
    0x002081B3#32 &&& (Instr.add 3#5 1#5 2#5).rowMask = (Instr.add 3#5 1#5 2#5).rowMatch := by decide
theorem witness_FieldsByLayout : (decodeFields 0xFFFFFFB3#32).layout = some .R ∧
    (decodeFields 0x80000013#32).layout = some .I ∧ (decodeFields 0xFFFFFFA3#32).layout = some .S ∧
    (decodeFields 0xFFFFFFE3#32).layout = some .B ∧ (decodeFields 0xFFFFFFB7#32).layout = some .U ∧
    (decodeFields 0xFFFFFFEF#32).layout = some .J := by decide
theorem witness_ImmediateBits : (0 < 32) ∧ (31 < 32) := by decide
theorem witness_OpcodeMap : (0x0FF0000F#32).extractLsb' 0 7 ∉
    [0x33#7, 0x13#7, 0x03#7, 0x67#7, 0x23#7, 0x63#7, 0x37#7, 0x17#7, 0x6F#7] := by decide

/-- `demo` fetches its word. -/
theorem fetches_demo {word : Word} (x1 x2 : Word)
    (h : (demo word x1 x2).mem.wordAt 0x100 = word) : Fetches (demo word x1 x2) word :=
  ⟨by simp [demo], by simp [demo], by simp [demo], by simpa [demo] using h⟩

theorem witness_IllegalFunctionCodes : Fetches (demo 0x0000B183#32 5#32 7#32) 0x0000B183#32 ∧
    decode 0x0000B183#32 = .error (.unknownFunction 0x0000B183#32) := ⟨fetches_demo _ _ (by decide), by decide⟩
theorem witness_IllegalWordHalts : Fetches (demo 0x0000007F#32 5#32 7#32) 0x0000007F#32 ∧
    ∀ i : Instr, 0x0000007F#32 &&& i.rowMask ≠ i.rowMatch :=
  ⟨fetches_demo _ _ (by decide), fun i => by cases i <;> simp [Instr.rowMask, Instr.rowMatch]⟩
theorem witness_IllegalWordHalts_zeros_and_ones : Fetches (demo 0x00000000#32 5#32 7#32) 0x00000000#32 ∧
    Fetches (demo 0xFFFFFFFF#32 5#32 7#32) 0xFFFFFFFF#32 := ⟨fetches_demo _ _ (by decide), fetches_demo _ _ (by decide)⟩
/-- One word for each clause of R139 to R144. -/
theorem witness_AbsentInstructionsHalt :
    Fetches (demo 0x0FF0000F#32 5#32 7#32) 0x0FF0000F#32 ∧
    Fetches (demo 0x10500073#32 5#32 7#32) 0x10500073#32 ∧
    Fetches (demo 0x0220C1B3#32 5#32 7#32) 0x0220C1B3#32 ∧
    Fetches (demo 0x0000202F#32 5#32 7#32) 0x0000202F#32 ∧
    Fetches (demo 0x00000001#32 5#32 7#32) 0x00000001#32 ∧
    Fetches (demo 0x0000E183#32 5#32 7#32) 0x0000E183#32 ∧
    Fetches (demo 0x0000B183#32 5#32 7#32) 0x0000B183#32 ∧
    Fetches (demo 0x0020B023#32 5#32 7#32) 0x0020B023#32 ∧
    Fetches (demo 0x0000001B#32 5#32 7#32) 0x0000001B#32 ∧
    Fetches (demo 0x0020813B#32 5#32 7#32) 0x0020813B#32 ∧
    Fetches (demo 0x02009193#32 5#32 7#32) 0x02009193#32 ∧
    Fetches (demo 0x0200D193#32 5#32 7#32) 0x0200D193#32 :=
  ⟨fetches_demo _ _ (by decide), fetches_demo _ _ (by decide), fetches_demo _ _ (by decide), fetches_demo _ _ (by decide), fetches_demo _ _ (by decide), fetches_demo _ _ (by decide), fetches_demo _ _ (by decide), fetches_demo _ _ (by decide), fetches_demo _ _ (by decide), fetches_demo _ _ (by decide), fetches_demo _ _ (by decide), fetches_demo _ _ (by decide)⟩
theorem witness_AbsentInstructionsHalt_codes : opcodeOf 0x0FF0000F#32 = 0b0001111#7 ∧ opcodeOf 0x10500073#32 = 0b1110011#7 ∧
    (opcodeOf 0x0220C1B3#32 = 0b0110011#7 ∧ funct7Of 0x0220C1B3#32 = 0b0000001#7) ∧ opcodeOf 0x0000202F#32 = 0b0101111#7 ∧
    (0x00000001#32).extractLsb' 0 2 ≠ 0b11#2 ∧
    (opcodeOf 0x0000E183#32 = 0b0000011#7 ∧ funct3Of 0x0000E183#32 = 0b110#3 ∧ funct3Of 0x0000B183#32 = 0b011#3) ∧
    (opcodeOf 0x0020B023#32 = 0b0100011#7 ∧ funct3Of 0x0020B023#32 = 0b011#3) ∧ opcodeOf 0x0000001B#32 = 0b0011011#7 ∧
    opcodeOf 0x0020813B#32 = 0b0111011#7 ∧ (opcodeOf 0x02009193#32 = 0b0010011#7 ∧ funct3Of 0x02009193#32 = 0b001#3 ∧
    funct3Of 0x0200D193#32 = 0b101#3 ∧ (0x02009193#32).extractLsb' 25 1 = 1#1) := by decide

/-- A Step of these states answers the state `after` names. -/
theorem step_demo : step (demo 0x002081B3#32 5#32 10#32) = .next (after (demo 0x002081B3#32 5#32 10#32)) := rfl

theorem witness_StepWritesOneRegister : step (demo 0x002081B3#32 5#32 10#32) = .next (after (demo 0x002081B3#32 5#32 10#32)) :=
  step_demo
theorem witness_MemReadRule : (0x000001FC#32).toNat + Width.word.bytes ≤ (demo 0#32 0#32 0#32).mem.size ∧
    (demo 0#32 0#32 0#32).mem.size < (0x000001FD#32).toNat + Width.word.bytes := by decide
theorem witness_MemWriteRule : (demo 0#32 0#32 0#32).mem.wf = true ∧ 8 * Width.word.bytes ≤ 32 ∧
    (0x000001FC#32).toNat + Width.word.bytes ≤ (demo 0#32 0#32 0#32).mem.size ∧
    (demo 0#32 0#32 0#32).mem.size < (0x000001FD#32).toNat + Width.word.bytes := by decide
theorem witness_MemoryRoundTrip : (demo 0#32 0#32 0#32).mem.wf = true ∧ 8 * Width.quadWord.bytes ≤ 128 ∧
    (0x000001F0#32).toNat + Width.quadWord.bytes ≤ (demo 0#32 0#32 0#32).mem.size := by decide
theorem witness_BoundsTestDoesNotWrap : State.reset.mem.size ≤ 4294967296 ∧
    4294967296 < (0xFFFFFFFD#32).toNat + Width.word.bytes ∧ (demo 0#32 0#32 0#32).mem.size < 4294967296 := by decide
/-- The first sum a 32-bit adder would wrap: in bounds of a memory of 2^32 bytes, out of bounds of a shorter one. -/
theorem witness_BoundsTestDoesNotWrap_edge : (0xFFFFFFFC#32).toNat + Width.word.bytes = 4294967296 ∧
    ¬State.reset.mem.size < (0xFFFFFFFC#32).toNat + Width.word.bytes ∧
    (demo 0#32 0#32 0#32).mem.size < (0xFFFFFFFC#32).toNat + Width.word.bytes := by decide
theorem witness_WidthsShareBytes : (demo 0#32 0#32 0#32).mem.wf = true ∧
    (0x000001FC#32).toNat + 4 ≤ (demo 0#32 0#32 0#32).mem.size := by decide
theorem witness_AluArithmeticAndLogic : (31 < 32) := by decide
theorem witness_AluShifts : (31 < 32) ∧ (33#32).toNat % 32 = (1#32).toNat % 32 ∧ (32#32).toNat % 32 = 0 := by decide
theorem witness_AluSelection : decode 0x402081B3#32 = .ok (.sub 3#5 1#5 2#5) ∧ opcodeOf 0x402081B3#32 = 0b0110011#7 ∧
    decode 0x4040D193#32 = .ok (.srai 3#5 1#5 4#5) ∧ opcodeOf 0x4040D193#32 = 0b0010011#7 ∧
    decode 0xFFFFAF83#32 = .ok (.lw 31#5 31#5 0xFFFFFFFF#32) ∧ opcodeOf 0xFFFFAF83#32 = 0b0000011#7 ∧
    decode 0xFE20AE23#32 = .ok (.sw 1#5 2#5 0xFFFFFFFC#32) ∧ opcodeOf 0xFE20AE23#32 = 0b0100011#7 := by decide
theorem witness_AluSelection_other_groups :
    decode 0xDEADC2B7#32 = .ok (.lui 5#5 0xDEADC000#32) ∧ opcodeOf 0xDEADC2B7#32 = 0b0110111#7 ∧
    decode 0xDEADC297#32 = .ok (.auipc 5#5 0xDEADC000#32) ∧ opcodeOf 0xDEADC297#32 = 0b0010111#7 ∧
    decode 0x7FFFF0EF#32 = .ok (.jal 1#5 0x000FFFFE#32) ∧ opcodeOf 0x7FFFF0EF#32 = 0b1101111#7 ∧
    decode 0x004280E7#32 = .ok (.jalr 1#5 5#5 4#32) ∧ opcodeOf 0x004280E7#32 = 0b1100111#7 ∧
    decode 0xFE2088E3#32 = .ok (.beq 1#5 2#5 0xFFFFFFF0#32) ∧ opcodeOf 0xFE2088E3#32 = 0b1100011#7 := by decide
theorem witness_RegisterRegisterInstructions : 0x002081B3#32 &&& 0xFE00707F#32 = 0x00000033#32 ∧
    0x402081B3#32 &&& 0xFE00707F#32 = 0x40000033#32 ∧ 0x002091B3#32 &&& 0xFE00707F#32 = 0x00001033#32 ∧
    0x0020A1B3#32 &&& 0xFE00707F#32 = 0x00002033#32 ∧ 0x0020B1B3#32 &&& 0xFE00707F#32 = 0x00003033#32 ∧
    0x0020C1B3#32 &&& 0xFE00707F#32 = 0x00004033#32 ∧ 0x0020D1B3#32 &&& 0xFE00707F#32 = 0x00005033#32 ∧
    0x4020D1B3#32 &&& 0xFE00707F#32 = 0x40005033#32 ∧ 0x0020E1B3#32 &&& 0xFE00707F#32 = 0x00006033#32 ∧
    0x0020F1B3#32 &&& 0xFE00707F#32 = 0x00007033#32 := by decide
theorem witness_RegisterImmediateInstructions : 0xFFF08193#32 &&& 0x0000707F#32 = 0x00000013#32 ∧
    0xFFF0A193#32 &&& 0x0000707F#32 = 0x00002013#32 ∧ 0xFFF0B193#32 &&& 0x0000707F#32 = 0x00003013#32 ∧
    0xFFF0C193#32 &&& 0x0000707F#32 = 0x00004013#32 ∧ 0x0F00E193#32 &&& 0x0000707F#32 = 0x00006013#32 ∧
    0x0F00F193#32 &&& 0x0000707F#32 = 0x00007013#32 ∧ 0x00409193#32 &&& 0xFE00707F#32 = 0x00001013#32 ∧
    0x0040D193#32 &&& 0xFE00707F#32 = 0x00005013#32 ∧ 0x4040D193#32 &&& 0xFE00707F#32 = 0x40005013#32 := by decide
theorem witness_RegisterImmediateInstructions_rejected : Fetches (demo 0x40009193#32 5#32 7#32) 0x40009193#32 ∧
    Fetches (demo 0x2000D193#32 5#32 7#32) 0x2000D193#32 ∧ opcodeOf 0x40009193#32 = 0b0010011#7 ∧
    (funct3Of 0x40009193#32 = 0b001#3 ∧ (0x40009193#32).extractLsb' 25 7 ≠ 0b0000000#7) ∧ opcodeOf 0x2000D193#32 = 0b0010011#7 ∧
    funct3Of 0x2000D193#32 = 0b101#3 ∧ (0x2000D193#32).extractLsb' 25 7 ≠ 0b0000000#7 ∧
    (0x2000D193#32).extractLsb' 25 7 ≠ 0b0100000#7 :=
  ⟨fetches_demo _ _ (by decide), fetches_demo _ _ (by decide), by decide⟩
theorem witness_UpperImmediateInstructions : 0xDEADC2B7#32 &&& 0x0000007F#32 = 0x00000037#32 ∧
    0x00001297#32 &&& 0x0000007F#32 = 0x00000017#32 := by decide
theorem witness_JumpInstructions : 0x008000EF#32 &&& 0x0000007F#32 = 0x0000006F#32 ∧
    0x004280E7#32 &&& 0x0000707F#32 = 0x00000067#32 := by decide
theorem witness_JumpInstructions_rejected : Fetches (demo 0x000090E7#32 5#32 7#32) 0x000090E7#32 ∧
    opcodeOf 0x000090E7#32 = 0b1100111#7 ∧ funct3Of 0x000090E7#32 ≠ 0b000#3 :=
  ⟨fetches_demo _ _ (by decide), by decide, by decide⟩
theorem witness_BranchInstructions : 0xFE2088E3#32 &&& 0x0000707F#32 = 0x00000063#32 ∧
    0x00209463#32 &&& 0x0000707F#32 = 0x00001063#32 ∧ 0x0020C463#32 &&& 0x0000707F#32 = 0x00004063#32 ∧
    0x0020D463#32 &&& 0x0000707F#32 = 0x00005063#32 ∧ 0x0020E463#32 &&& 0x0000707F#32 = 0x00006063#32 ∧
    0x0020F463#32 &&& 0x0000707F#32 = 0x00007063#32 := by decide
/-- For each condition registers that meet it and registers that do not. -/
theorem witness_BranchInstructions_conditions :
    ((demo 0#32 7#32 7#32).reg 1#5 = (demo 0#32 7#32 7#32).reg 2#5) ∧
    ((demo 0#32 7#32 8#32).reg 1#5 ≠ (demo 0#32 7#32 8#32).reg 2#5) ∧
    (((demo 0#32 0xFFFFFFFF#32 1#32).reg 1#5).toInt < ((demo 0#32 0xFFFFFFFF#32 1#32).reg 2#5).toInt) ∧
    (((demo 0#32 1#32 1#32).reg 1#5).toInt ≥ ((demo 0#32 1#32 1#32).reg 2#5).toInt) ∧
    (((demo 0#32 1#32 0xFFFFFFFF#32).reg 1#5).toNat < ((demo 0#32 1#32 0xFFFFFFFF#32).reg 2#5).toNat) ∧
    (((demo 0#32 1#32 1#32).reg 1#5).toNat ≥ ((demo 0#32 1#32 1#32).reg 2#5).toNat) := by decide
theorem witness_BranchInstructions_rejected : Fetches (demo 0x0020A463#32 5#32 7#32) 0x0020A463#32 ∧
    Fetches (demo 0x0020B463#32 5#32 7#32) 0x0020B463#32 ∧ opcodeOf 0x0020A463#32 = 0b1100011#7 ∧
    funct3Of 0x0020A463#32 = 0b010#3 ∧ opcodeOf 0x0020B463#32 = 0b1100011#7 ∧ funct3Of 0x0020B463#32 = 0b011#3 :=
  ⟨fetches_demo _ _ (by decide), fetches_demo _ _ (by decide), by decide⟩
theorem witness_LoadInstructions : 0x00108183#32 &&& 0x0000707F#32 = 0x00000003#32 ∧
    0x00209183#32 &&& 0x0000707F#32 = 0x00001003#32 ∧ 0x0000A183#32 &&& 0x0000707F#32 = 0x00002003#32 ∧
    0x0010C183#32 &&& 0x0000707F#32 = 0x00004003#32 ∧ 0x0020D183#32 &&& 0x0000707F#32 = 0x00005003#32 := by decide
/-- The last address each width can access at MEM_LEN = 0x200, and the first it cannot. -/
theorem witness_LoadInstructions_bounds :
    ((demo 0#32 0x1FC#32 0#32).reg 1#5 + 3#32).toNat + 1 ≤ (demo 0#32 0x1FC#32 0#32).mem.size ∧
    ((demo 0#32 0x1FC#32 0#32).reg 1#5 + 2#32).toNat + 2 ≤ (demo 0#32 0x1FC#32 0#32).mem.size ∧
    ((demo 0#32 0x1FC#32 0#32).reg 1#5 + 0#32).toNat + 4 ≤ (demo 0#32 0x1FC#32 0#32).mem.size ∧
    (demo 0#32 0x1FC#32 0#32).mem.size < ((demo 0#32 0x1FC#32 0#32).reg 1#5 + 4#32).toNat + 1 ∧
    (demo 0#32 0x1FC#32 0#32).mem.size < ((demo 0#32 0x1FC#32 0#32).reg 1#5 + 3#32).toNat + 2 ∧
    (demo 0#32 0x1FC#32 0#32).mem.size < ((demo 0#32 0x1FC#32 0#32).reg 1#5 + 1#32).toNat + 4 := by decide
theorem witness_LoadInstructions_rejected : Fetches (demo 0x0000B183#32 5#32 7#32) 0x0000B183#32 ∧
    Fetches (demo 0x0000E183#32 5#32 7#32) 0x0000E183#32 ∧ Fetches (demo 0x0000F183#32 5#32 7#32) 0x0000F183#32 ∧
    opcodeOf 0x0000B183#32 = 0b0000011#7 ∧ funct3Of 0x0000B183#32 = 0b011#3 ∧ opcodeOf 0x0000E183#32 = 0b0000011#7 ∧
    funct3Of 0x0000E183#32 = 0b110#3 ∧ opcodeOf 0x0000F183#32 = 0b0000011#7 ∧ funct3Of 0x0000F183#32 = 0b111#3 :=
  ⟨fetches_demo _ _ (by decide), fetches_demo _ _ (by decide), fetches_demo _ _ (by decide), by decide⟩
theorem witness_StoreInstructions : 0x002081A3#32 &&& 0x0000707F#32 = 0x00000023#32 ∧
    0x00209123#32 &&& 0x0000707F#32 = 0x00001023#32 ∧ 0x0020A023#32 &&& 0x0000707F#32 = 0x00002023#32 ∧
    (demo 0#32 0x1FC#32 0#32).mem.wf = true := by decide
theorem witness_StoreInstructions_bounds :
    ((demo 0#32 0x1FC#32 0#32).reg 1#5 + 3#32).toNat + 1 ≤ (demo 0#32 0x1FC#32 0#32).mem.size ∧
    ((demo 0#32 0x1FC#32 0#32).reg 1#5 + 2#32).toNat + 2 ≤ (demo 0#32 0x1FC#32 0#32).mem.size ∧
    ((demo 0#32 0x1FC#32 0#32).reg 1#5 + 0#32).toNat + 4 ≤ (demo 0#32 0x1FC#32 0#32).mem.size ∧
    (demo 0#32 0x1FC#32 0#32).mem.size < ((demo 0#32 0x1FC#32 0#32).reg 1#5 + 4#32).toNat + 1 ∧
    (demo 0#32 0x1FC#32 0#32).mem.size < ((demo 0#32 0x1FC#32 0#32).reg 1#5 + 3#32).toNat + 2 ∧
    (demo 0#32 0x1FC#32 0#32).mem.size < ((demo 0#32 0x1FC#32 0#32).reg 1#5 + 1#32).toNat + 4 := by decide
theorem witness_StoreInstructions_rejected : Fetches (demo 0x0020B023#32 5#32 7#32) 0x0020B023#32 ∧
    Fetches (demo 0xFFFFFFA3#32 5#32 7#32) 0xFFFFFFA3#32 ∧ opcodeOf 0x0020B023#32 = 0b0100011#7 ∧
    3 ≤ (funct3Of 0x0020B023#32).toNat ∧ opcodeOf 0xFFFFFFA3#32 = 0b0100011#7 ∧ 3 ≤ (funct3Of 0xFFFFFFA3#32).toNat :=
  ⟨fetches_demo _ _ (by decide), fetches_demo _ _ (by decide), by decide⟩
theorem witness_NextPc : (demo 0#32 5#32 5#32).runState = .running ∧
    exec (.bge 1#5 2#5 8#32) (demo 0#32 5#32 5#32) = .next ((demo 0#32 5#32 5#32).setPc 0x108#32) ∧
    ((demo 0#32 5#32 5#32).setPc 0x108#32).runState = .running := ⟨by simp [demo], rfl, by simp [demo]⟩
theorem witness_NextPc_halting : (demo 0#32 0x200#32 5#32).runState = .running ∧
    exec (.lb 3#5 1#5 0#32) (demo 0#32 0x200#32 5#32) = .next ((demo 0#32 0x200#32 5#32).raise (.outOfBounds 0x200#32)) ∧
    ((demo 0#32 0x200#32 5#32).raise (.outOfBounds 0x200#32)).runState = .halted := ⟨by simp [demo], rfl, rfl⟩
/-- JAL to 0x200 = MEM_LEN and to 0x102; JALR to 0xFFFFFFFC and to 0x1FE. -/
theorem witness_JumpTargetsUnchecked :
    (Fetches (demo 0x100000EF#32 0#32 0#32) 0x100000EF#32 ∧ decode 0x100000EF#32 = .ok (.jal 1#5 0x100#32) ∧
      (demo 0x100000EF#32 0#32 0#32).mem.size ≤ ((demo 0x100000EF#32 0#32 0#32).pc + 0x100#32).toNat) ∧
    (Fetches (demo 0x002000EF#32 0#32 0#32) 0x002000EF#32 ∧ decode 0x002000EF#32 = .ok (.jal 1#5 2#32) ∧
      ((demo 0x002000EF#32 0#32 0#32).pc + 2#32).toNat < (demo 0x002000EF#32 0#32 0#32).mem.size ∧
      ((demo 0x002000EF#32 0#32 0#32).pc + 2#32).toNat % 4 ≠ 0) ∧
    (Fetches (demo 0x000080E7#32 0xFFFFFFFD#32 0#32) 0x000080E7#32 ∧ decode 0x000080E7#32 = .ok (.jalr 1#5 1#5 0#32) ∧
      (demo 0x000080E7#32 0xFFFFFFFD#32 0#32).mem.size ≤
        (((demo 0x000080E7#32 0xFFFFFFFD#32 0#32).reg 1#5 + 0#32) &&& 0xFFFFFFFE#32).toNat) ∧
    (Fetches (demo 0x000080E7#32 0x1FF#32 0#32) 0x000080E7#32 ∧
      (((demo 0x000080E7#32 0x1FF#32 0#32).reg 1#5 + 0#32) &&& 0xFFFFFFFE#32).toNat <
        (demo 0x000080E7#32 0x1FF#32 0#32).mem.size ∧
      (((demo 0x000080E7#32 0x1FF#32 0#32).reg 1#5 + 0#32) &&& 0xFFFFFFFE#32).toNat % 4 ≠ 0) :=
  ⟨⟨fetches_demo _ _ (by decide), by decide, by decide⟩, ⟨fetches_demo _ _ (by decide), by decide, by decide, by decide⟩,
    ⟨fetches_demo _ _ (by decide), by decide, by decide⟩, fetches_demo _ _ (by decide), by decide, by decide⟩
theorem witness_HaltChangesOnlyHaltRecord : (demo 0x00000073#32 5#32 7#32).runState = .running ∧
    step (demo 0x00000073#32 5#32 7#32) = .next (after (demo 0x00000073#32 5#32 7#32)) ∧
    (after (demo 0x00000073#32 5#32 7#32)).runState = .halted := ⟨by simp [demo], rfl, by decide⟩
/-- The five checks of a Step, each met by a Running hart. -/
theorem witness_HaltPriority :
    ((demo 0#32 0#32 0#32).setPc 0x200#32).runState = .running ∧
    ((demo 0#32 0#32 0#32).setPc 0x200#32).mem.size ≤ ((demo 0#32 0#32 0#32).setPc 0x200#32).pc.toNat ∧
    ((0x1FF#32).toNat < (demo 0#32 0#32 0#32).mem.size ∧ (0x1FF#32).toNat % 4 ≠ 0) ∧
    ((0x1FC#32).toNat < 0x1FF ∧ (0x1FC#32).toNat % 4 = 0 ∧ 0x1FF < (0x1FC#32).toNat + 4) := by decide
theorem witness_HaltPriority_illegal : (demo 0x00000073#32 0#32 0#32).pc.toNat % 4 = 0 ∧
    (demo 0x00000073#32 0#32 0#32).pc.toNat + 4 ≤ (demo 0x00000073#32 0#32 0#32).mem.size ∧
    ∀ i, decode ((demo 0x00000073#32 0#32 0#32).mem.wordAt (demo 0x00000073#32 0#32 0#32).pc.toNat) ≠ .ok i :=
  ⟨by decide, by decide, fun _ => by rw [show decode _ = .error (.unmappedOpcode 0x00000073#32) by decide]; nofun⟩
theorem witness_HaltPriority_data : (demo 0x0020A023#32 0x1FD#32 0#32).pc.toNat % 4 = 0 ∧
    (demo 0x0020A023#32 0x1FD#32 0#32).pc.toNat + 4 ≤ (demo 0x0020A023#32 0x1FD#32 0#32).mem.size ∧
    decode ((demo 0x0020A023#32 0x1FD#32 0#32).mem.wordAt (demo 0x0020A023#32 0x1FD#32 0#32).pc.toNat) =
      .ok (.sw 1#5 2#5 0#32) ∧
    dataAccess (.sw 1#5 2#5 0#32) (demo 0x0020A023#32 0x1FD#32 0#32) = some (0x1FD#32, .word) ∧
    (demo 0x0020A023#32 0x1FD#32 0#32).mem.size < (0x1FD#32).toNat + Width.word.bytes := by decide
/-- One halting Step for each of the four causes. -/
theorem witness_FourWaysToHalt :
    ((after (resetWith [] 0#32)).haltCause.code = 1 ∧ (resetWith [] 0#32).runState = .running) ∧
    ((after (demo 0x00000073#32 5#32 7#32)).haltCause.code = 2 ∧ (demo 0x00000073#32 5#32 7#32).runState = .running) ∧
    ((after (demo 0x0000A183#32 0x1FD#32 0#32)).haltCause.code = 3 ∧ (demo 0x0000A183#32 0x1FD#32 0#32).runState = .running) ∧
    ((after ((demo 0#32 0#32 0#32).setPc 0x102#32)).haltCause.code = 4 ∧
      ((demo 0#32 0#32 0#32).setPc 0x102#32).runState = .running) := by decide
theorem witness_HaltedForever : ((demo 0#32 0#32 0#32).raise (.outOfBounds 9#32)).runState = .halted := rfl
theorem witness_DriverClassifiesHalt : (resetWith [] 0#32).runState = .running ∧
    step (resetWith [] 0#32) = .next (after (resetWith [] 0#32)) ∧ (after (resetWith [] 0#32)).runState = .halted :=
  ⟨rfl, rfl, by decide⟩
theorem witness_StepRunsDecodedInstruction : (demo 0x002081B3#32 5#32 10#32).runState = .running ∧
    (demo 0x002081B3#32 5#32 10#32).pc.toNat % 4 = 0 ∧
    (demo 0x002081B3#32 5#32 10#32).pc.toNat + 4 ≤ (demo 0x002081B3#32 5#32 10#32).mem.size ∧
    decodeBytes [(demo 0x002081B3#32 5#32 10#32).mem.readByte 0x100, (demo 0x002081B3#32 5#32 10#32).mem.readByte 0x101,
      (demo 0x002081B3#32 5#32 10#32).mem.readByte 0x102, (demo 0x002081B3#32 5#32 10#32).mem.readByte 0x103] =
      .ok (.add 3#5 1#5 2#5, []) := by decide
theorem witness_PlacedWordRuns : ((demo 0#32 0#32 0#32).setPc 0x1FF#32).mem.wf = true ∧
    decodeTableWord 32 0x002081B3 = some (.add 3#5 1#5 2#5) := by decide
theorem witness_OnlyStoresChangeMemory :
    step (demo 0x0020A023#32 0x180#32 0x12345678#32) = .next (after (demo 0x0020A023#32 0x180#32 0x12345678#32)) ∧
    (after (demo 0x0020A023#32 0x180#32 0x12345678#32)).mem.readByte 0x183 ≠
      (demo 0x0020A023#32 0x180#32 0x12345678#32).mem.readByte 0x183 := ⟨rfl, by decide⟩
theorem witness_StoreSeenByNextFetch : (demo 0x0020A023#32 0x104#32 0x00500093#32).runState = .running ∧
    (demo 0x0020A023#32 0x104#32 0x00500093#32).mem.wf = true ∧
    (demo 0x0020A023#32 0x104#32 0x00500093#32).pc.toNat % 4 = 0 ∧
    (demo 0x0020A023#32 0x104#32 0x00500093#32).pc.toNat + 8 ≤ (demo 0x0020A023#32 0x104#32 0x00500093#32).mem.size ∧
    decode ((demo 0x0020A023#32 0x104#32 0x00500093#32).mem.wordAt 0x100) = .ok (.sw 1#5 2#5 0#32) ∧
    (demo 0x0020A023#32 0x104#32 0x00500093#32).reg 1#5 + 0#32 = (demo 0x0020A023#32 0x104#32 0x00500093#32).pc + 4#32 ∧
    decode ((demo 0x0020A023#32 0x104#32 0x00500093#32).reg 2#5) = .ok (.addi 1#5 0#5 5#32) := by decide
theorem witness_LoadReturnsStore : (demo 0#32 0x1FC#32 7#32).mem.wf = true ∧ (3#5 ≠ 0#5) ∧
    ((demo 0#32 0x1FC#32 7#32).reg 1#5 + 0#32).toNat + 4 ≤ (demo 0#32 0x1FC#32 7#32).mem.size ∧
    ((demo 0#32 0x1FC#32 7#32).reg 1#5 + 2#32).toNat + 2 ≤ (demo 0#32 0x1FC#32 7#32).mem.size ∧
    ((demo 0#32 0x1FC#32 7#32).reg 1#5 + 3#32).toNat + 1 ≤ (demo 0#32 0x1FC#32 7#32).mem.size := by decide
theorem witness_HaltRecordInvisible :
    exec (.bge 1#5 2#5 8#32) (demo 0#32 5#32 5#32) = .next ((demo 0#32 5#32 5#32).setPc 0x108#32) := rfl
theorem witness_ResetState : 2 < [1#8, 2#8, 3#8].length := by decide
theorem witness_ResetPcUnchecked : (List.replicate 8 0x00#8).length ≤ (8#32).toNat ∧
    (2#32).toNat < (List.replicate 8 0x00#8).length ∧ (2#32).toNat % 4 ≠ 0 := by decide
theorem witness_StepKeepsInvariant : (demo 0x002081B3#32 5#32 10#32).Inv ∧
    step (demo 0x002081B3#32 5#32 10#32) = .next (after (demo 0x002081B3#32 5#32 10#32)) :=
  ⟨⟨by decide, rfl⟩, step_demo⟩
theorem witness_StepKeepsInvariant_halted : ((demo 0#32 0#32 0#32).setPc 0x200#32).endProgram.Inv ∧
    step ((demo 0#32 0#32 0#32).setPc 0x200#32).endProgram = .next ((demo 0#32 0#32 0#32).setPc 0x200#32).endProgram :=
  ⟨⟨by decide, rfl, by decide⟩, rfl⟩
theorem witness_ResetHasInvariant : [0x13#8, 0#8, 0#8, 0#8].length ≤ 4294967296 := by decide
theorem witness_RunsReportTruly : [0x13#8, 0#8, 0#8, 0#8].length ≤ 4294967296 ∧
    Host.Core.run Sys2Proof.core 1 (resetWith [0x13#8, 0#8, 0#8, 0#8] 0#32) =
      .next (after (resetWith [0x13#8, 0#8, 0#8, 0#8] 0#32)) := ⟨by decide, rfl⟩
/-- Runs of one or two Steps that end with each of the four causes, OutOfBounds by a fetch (a memory of two bytes) and
by a load (`lw x1, 8(x0)` in a memory of four). -/
theorem witness_RunsReportTruly_halted :
    (after (after (resetWith [0x13#8, 0#8, 0#8, 0#8] 0#32))).haltCause = .endOfProgram ∧
    (after (resetWith [0#8, 0#8, 0#8, 0#8] 2#32)).haltCause = .fetchMisaligned ∧
    (after (resetWith [0#8, 0#8, 0#8, 0#8] 0#32)).haltCause = .illegalInstruction ∧
    (after (resetWith [0x13#8, 0#8] 0#32)).haltCause = .outOfBounds ∧
    (after (resetWith [0x83#8, 0x20#8, 0x80#8, 0#8] 0#32)).haltCause = .outOfBounds := by decide

end Sys2Proof.Tests
end

section
/-! The parameters of the hardware (R7) at the values `State.reset` takes for them. -/

namespace Sys2Proof.Machine

/-- A memory that lists no cell reads as `Config.unlistedByte` at every address. -/
@[simp] theorem Memory.readByte_of_no_cells (size a : Nat) :
    Memory.readByte { size := size, cells := [] } a = Config.unlistedByte := rfl

/-- Settles O47: `State.reset` is `State.construct` at the parameters of `Config`, and its memory lists no cell. -/
theorem defaultReset : Obligations.DefaultReset := by
  unfold Obligations.DefaultReset State.reset
  refine ⟨State.construct_reg _ _, State.construct_pc _ _, ?size, ?bytes, State.construct_runState _ _,
    State.construct_haltCause _ _, State.construct_haltInfo _ _⟩
  case size => rw [State.construct_mem, Config.memLen]
  case bytes =>
    intro a
    rw [State.construct_mem, Memory.readByte_of_no_cells, Config.unlistedByte]

end Sys2Proof.Machine
end

section
/-! What an instruction and a Step can do, stated once for the statements about the state (R12 to R23). -/

namespace Sys2Proof.Machine

open Sys2Proof.Claims

/-! ### Completion -/

/-- What completing an instruction does whatever the instruction: the run state and the halt record are kept, memory
keeps its length and its canonical form, and at most one register changes. -/
structure Completed (s t : State) : Prop where
  run : RunKept s t
  size : t.mem.size = s.mem.size
  wf : s.mem.wf = true → t.mem.wf = true
  oneReg : ∃ rd, ∀ j, j ≠ rd → t.reg j = s.reg j

/-- The instruction makes a data access that passes the end of memory, and `t` is `s` halted for it (R147). -/
def AccessHalted (i : Instr) (s t : State) : Prop :=
  ∃ a w, dataAccess i s = some (a, w) ∧ s.mem.size < a.toNat + w.bytes ∧ t = s.raise (.outOfBounds a)

theorem completed_writeResult (s : State) (rd : RegIdx) (v : Word) : Completed s (s.writeResult rd v) where
  run := by simp [RunKept]
  size := by simp
  wf := by simp
  oneReg := ⟨rd, fun j hj => by simp [State.reg_writeResult, hj]⟩

theorem completed_setPc (s : State) (t : Word) : Completed s (s.setPc t) where
  run := by simp [RunKept]
  size := rfl
  wf := id
  oneReg := ⟨0#5, fun _ _ => rfl⟩

theorem completed_jumpAndLink (rd : RegIdx) (target : Word) (s : State) : Completed s (jumpAndLink rd target s) := by
  obtain ⟨-, hmem, hrun, hcause, hinfo, hreg⟩ := jumpAndLink_spec rd target s
  exact ⟨⟨hrun, hcause, hinfo⟩, by rw [hmem], by rw [hmem]; exact id, rd, fun j hj => by simp [hreg, hj]⟩

theorem completed_store {s : State} {a n : Nat} {k : Nat} (v : BitVec k) (hb : a + n ≤ s.mem.size) :
    Completed s (s.setMem (s.mem.writeBytes a n v)).advance where
  run := by simp [RunKept]
  size := by simp
  wf := fun h => Memory.writeBytes_wf h v hb
  oneReg := ⟨0#5, fun _ _ => rfl⟩

/-- Every instruction answers a next state, in which it has completed or its data access has halted the hart. -/
theorem exec_next (i : Instr) (s : State) : ∃ t, exec i s = .next t ∧ (Completed s t ∨ AccessHalted i s t) := by
  rcases exec_cases i s with ⟨rd, v, h⟩ | ⟨pc, h⟩ | ⟨rd, pc, h⟩ | ⟨a, w, v, -, hb, h⟩ | ⟨a, w, hd, hb, h⟩
  · exact ⟨_, h, .inl (completed_writeResult s rd v)⟩
  · exact ⟨_, h, .inl (completed_setPc s pc)⟩
  · exact ⟨_, h, .inl (completed_jumpAndLink rd pc s)⟩
  · exact ⟨_, h, .inl (completed_store v hb)⟩
  · exact ⟨_, h, .inr ⟨a, w, hd, hb, rfl⟩⟩

theorem exec_next_cases {i : Instr} {s t : State} (h : exec i s = .next t) : Completed s t ∨ AccessHalted i s t := by
  obtain ⟨t', ht', hc⟩ := exec_next i s
  rw [h] at ht'
  cases ht'
  exact hc

/-! ### The halt record, cause by cause -/

theorem State.haltRecordTrue_none_iff {s : State} (h : s.haltCause = .none) :
    s.haltRecordTrue ↔ s.runState = .running ∧ s.haltInfo = 0x00000000#32 := by
  unfold State.haltRecordTrue
  cases s.runState <;> simp [h]

theorem State.haltRecordTrue_endOfProgram_iff {s : State} (h : s.haltCause = .endOfProgram) :
    s.haltRecordTrue ↔ s.runState = .halted ∧ s.haltInfo = s.pc ∧ s.mem.size ≤ s.pc.toNat := by
  unfold State.haltRecordTrue
  cases s.runState <;> simp [h]

theorem State.haltRecordTrue_fetchMisaligned_iff {s : State} (h : s.haltCause = .fetchMisaligned) :
    s.haltRecordTrue ↔
      s.runState = .halted ∧ s.haltInfo = s.pc ∧ s.pc.toNat < s.mem.size ∧ s.pc.toNat % 4 ≠ 0 := by
  unfold State.haltRecordTrue
  cases s.runState <;> simp [h]

theorem State.haltRecordTrue_illegalInstruction_iff {s : State} (h : s.haltCause = .illegalInstruction) :
    s.haltRecordTrue ↔ s.runState = .halted ∧ s.haltInfo = s.mem.wordAt s.pc.toNat ∧ s.pc.toNat % 4 = 0 ∧
      s.pc.toNat + 4 ≤ s.mem.size ∧ ∀ i, decode s.haltInfo ≠ .ok i := by
  unfold State.haltRecordTrue
  cases s.runState <;> simp [h]

theorem State.haltRecordTrue_outOfBounds_iff {s : State} (h : s.haltCause = .outOfBounds) :
    s.haltRecordTrue ↔ s.runState = .halted ∧ s.pc.toNat % 4 = 0 ∧ s.pc.toNat < s.mem.size ∧
      ((s.haltInfo = s.pc ∧ s.mem.size < s.pc.toNat + 4) ∨
        (s.pc.toNat + 4 ≤ s.mem.size ∧ s.dataOutOfBounds s.haltInfo)) := by
  unfold State.haltRecordTrue
  cases s.runState <;> simp [h]

/-- A Running hart with a true halt record has cause None and info 0. -/
theorem State.haltRecordTrue_of_running {s : State} (h : s.haltRecordTrue) (hr : s.runState = .running) :
    s.haltCause = .none ∧ s.haltInfo = 0x00000000#32 := by
  cases hc : s.haltCause with
  | none => exact ⟨rfl, ((State.haltRecordTrue_none_iff hc).mp h).2⟩
  | endOfProgram | illegalInstruction | outOfBounds | fetchMisaligned => simp [State.haltRecordTrue, hr, hc] at h

/-- A halt record that is kept while the hart runs stays true. -/
theorem State.haltRecordTrue_of_runKept {s t : State} (hr : s.runState = .running) (hk : RunKept s t)
    (h : s.haltRecordTrue) : t.haltRecordTrue := by
  obtain ⟨hrun, hcause, hinfo⟩ := hk
  obtain ⟨hc, hi⟩ := State.haltRecordTrue_of_running h hr
  exact (State.haltRecordTrue_none_iff (hcause.trans hc)).mpr ⟨hrun.trans hr, hinfo.trans hi⟩

/-- Taking a fault changes no address, so the access it reports is the one the instruction made. -/
@[simp] theorem dataAccess_raise (i : Instr) (s : State) (r : Raised) : dataAccess i (s.raise r) = dataAccess i s := rfl

/-- A data access past the end of memory leaves a true halt record. -/
theorem AccessHalted.haltRecordTrue {i : Instr} {s t : State} (h : AccessHalted i s t) (h2 : s.pc.toNat % 4 = 0)
    (h3 : s.pc.toNat + 4 ≤ s.mem.size) (hd : decode (s.mem.wordAt s.pc.toNat) = .ok i) : t.haltRecordTrue := by
  obtain ⟨a, w, ha, hb, rfl⟩ := h
  have hdata : (s.raise (.outOfBounds a)).dataOutOfBounds a :=
    ⟨i, w, hd, (dataAccess_raise i s _).trans ha, hb⟩
  exact (State.haltRecordTrue_outOfBounds_iff rfl).mpr ⟨rfl, h2, by simp; omega, .inr ⟨h3, hdata⟩⟩

/-! ### One Step -/

/-- Everything a Step can do (R23): nothing to a Halted hart; and to a Running hart, halt it with a true halt record and
change nothing else, or complete an instruction. -/
inductive StepEffect (s t : State) : Prop where
  | stays (hr : s.runState = .halted) (ht : t = s)
  | halts (hr : s.runState = .running) (c : HaltCause) (w : Word) (ht : t = s.halt c w) (hrec : t.haltRecordTrue)
  | completes (hr : s.runState = .running) (hdone : Completed s t)

/-- Every Step answers a next state, and reaches it by one of the three effects. -/
theorem step_next (s : State) : ∃ t, step s = .next t ∧ StepEffect s t := by
  cases hr : s.runState with
  | halted => exact ⟨s, step_halted hr, .stays hr rfl⟩
  | running =>
    rw [step_running hr]
    rcases stepRunning_cases s with ⟨h1, h⟩ | ⟨h1, h2, h⟩ | ⟨h1, h2, h3, h⟩ | ⟨h2, h3, hd, h⟩ | ⟨i, h2, h3, hd, h⟩
    · exact ⟨_, h, .halts hr _ _ rfl ((State.haltRecordTrue_endOfProgram_iff rfl).mpr ⟨rfl, rfl, h1⟩)⟩
    · exact ⟨_, h, .halts hr _ _ rfl ((State.haltRecordTrue_fetchMisaligned_iff rfl).mpr ⟨rfl, rfl, h1, h2⟩)⟩
    · exact ⟨_, h, .halts hr _ _ rfl ((State.haltRecordTrue_outOfBounds_iff rfl).mpr ⟨rfl, h2, h1, .inl ⟨rfl, h3⟩⟩)⟩
    · exact ⟨_, h, .halts hr _ _ rfl
        ((State.haltRecordTrue_illegalInstruction_iff rfl).mpr ⟨rfl, rfl, h2, h3, hd⟩)⟩
    · obtain ⟨t, ht, hdone | hhalt⟩ := exec_next i s
      · exact ⟨t, h.trans ht, .completes hr hdone⟩
      · have hrec := hhalt.haltRecordTrue h2 h3 hd
        obtain ⟨a, w, -, -, rfl⟩ := hhalt
        exact ⟨_, h.trans ht, .halts hr _ _ rfl hrec⟩

theorem step_effect {s t : State} (h : step s = .next t) : StepEffect s t := by
  obtain ⟨t', ht', he⟩ := step_next s
  rw [h] at ht'
  cases ht'
  exact he

/-- A Step keeps the length of memory (R29). -/
theorem step_mem_size {s t : State} (h : step s = .next t) : t.mem.size = s.mem.size := by
  cases step_effect h with
  | stays _ ht => rw [ht]
  | halts _ c w ht _ => rw [ht, State.halt_mem]
  | completes _ hdone => exact hdone.size

/-- A Step of a Running hart at a pc whose word decodes is the instruction's execution (R23). -/
theorem step_eq_exec {s : State} {i : Instr} (hr : s.runState = .running) (h2 : s.pc.toNat % 4 = 0)
    (h3 : s.pc.toNat + 4 ≤ s.mem.size) (hd : decode (s.mem.wordAt s.pc.toNat) = .ok i) : step s = exec i s := by
  obtain ⟨hl, hs⟩ := (decode_ok_iff _ _).mp hd
  simp [step_running hr, stepRunning, fetch_word h2 h3, hl, execute, hs]

/-! ### Runs -/

theorem run_zero (s : State) : Host.Core.run Sys2Proof.core 0 s = .next s := rfl

theorem run_succ {s t : State} (k : Nat) (h : step s = .next t) :
    Host.Core.run Sys2Proof.core (k + 1) s = Host.Core.run Sys2Proof.core k t := by
  have hcore : Sys2Proof.core.step s = .next t := h
  simp only [Host.Core.run, hcore]

/-- What every Step keeps, every run keeps. -/
theorem run_keeps {P : State → Prop} (hstep : ∀ s t, P s → step s = .next t → P t) {k : Nat} {s t : State}
    (hs : P s) (h : Host.Core.run Sys2Proof.core k s = .next t) : P t := by
  induction k generalizing s with
  | zero => cases h; exact hs
  | succ k ih =>
    obtain ⟨u, hu, -⟩ := step_next s
    rw [run_succ k hu] at h
    exact ih (hstep s u hs hu) h

/-- Reset with any image of at most 2^32 bytes meets the invariant. -/
theorem resetWith_inv {memInit : List Byte} (resetPc : Word) (h : memInit.length ≤ Config.maxMemLen) :
    (resetWith memInit resetPc).Inv := ⟨Memory.ofBytes_wf h, rfl⟩

end Sys2Proof.Machine
end

section
/-! The statements about registers, Steps and runs. -/

namespace Sys2Proof.Machine

open Sys2Proof.Claims

/-- Settles O49, by what a Step can do: nothing, halt with a true record, or complete an instruction. -/
theorem stepKeepsInvariant : Obligations.StepKeepsInvariant := by
  unfold Obligations.StepKeepsInvariant
  rintro s t ⟨hwf, hrec⟩ h
  cases step_effect h with
  | stays _ ht => rw [ht]; exact ⟨hwf, hrec⟩
  | halts _ c w ht hrec' => exact ⟨by rw [ht]; exact hwf, hrec'⟩
  | completes hr hdone => exact ⟨hdone.wf hwf, State.haltRecordTrue_of_runKept hr hdone.run hrec⟩

/-- A register read after a sequence of writes. Induction from the last write, which is the first one `find?` meets. -/
theorem reg_foldl_setReg (s : State) (ws : List (RegIdx × Word)) (j : RegIdx) :
    (ws.foldl (fun s w => s.setReg w.1 w.2) s).reg j =
      if j = 0#5 then 0x00000000#32
      else ((ws.reverse.find? fun w => w.1 == j).map Prod.snd).getD (s.reg j) := by
  induction ws using List.reverseRecOn with
  | nil =>
    by_cases hj : j = 0#5
    · subst hj; rfl
    · simp [hj]
  | append_singleton ws w ih =>
    rw [List.foldl_concat, State.reg_setReg, ih, List.reverse_concat, List.find?_cons]
    by_cases hj : j = 0#5
    · simp [hj]
    · by_cases hw : w.1 = j
      · simp [hj, hw]
      · simp [hj, beq_false_of_ne hw, Ne.symm hw]

/-- A sequence of register writes leaves everything but the registers. -/
theorem foldl_setReg_frame (s : State) (ws : List (RegIdx × Word)) :
    (ws.foldl (fun s w => s.setReg w.1 w.2) s).pc = s.pc ∧
      (ws.foldl (fun s w => s.setReg w.1 w.2) s).mem = s.mem ∧
      RunKept s (ws.foldl (fun s w => s.setReg w.1 w.2) s) := by
  unfold RunKept
  induction ws generalizing s with
  | nil => simp
  | cons w ws ih => simpa using ih (s.setReg w.1 w.2)

/-- Settles O11, by induction on the writes. -/
theorem registerReadsLastWrite : Obligations.RegisterReadsLastWrite := by
  unfold Obligations.RegisterReadsLastWrite
  refine ⟨reg_foldl_setReg, fun s ws => ?frame, fun _ _ j => State.construct_reg _ _ j⟩
  case frame =>
    obtain ⟨hpc, hmem, hrun⟩ := foldl_setReg_frame s ws
    exact ⟨hpc, ⟨by rw [hmem], fun a => by rw [hmem]⟩, hrun⟩

/-- Settles O12: a Step that halts writes no register, and a completed instruction at most one. -/
theorem stepWritesOneRegister : Obligations.StepWritesOneRegister := by
  unfold Obligations.StepWritesOneRegister
  intro s t h
  cases step_effect h with
  | stays _ ht => exact ⟨0#5, fun _ _ => by rw [ht]⟩
  | halts _ c w ht _ => exact ⟨0#5, fun _ _ => by rw [ht, State.halt_reg]⟩
  | completes _ hdone => exact hdone.oneReg

/-- Settles O37, by induction on the number of Steps. -/
theorem haltedForever : Obligations.HaltedForever := by
  unfold Obligations.HaltedForever
  intro k s h
  induction k with
  | zero => rfl
  | succ k ih => rw [run_succ k (step_halted h), ih]

/-- Settles O41, by induction on the number of Steps. -/
theorem runsNeverStick : Obligations.RunsNeverStick := by
  unfold Obligations.RunsNeverStick
  intro k
  induction k with
  | zero => exact fun s => ⟨s, run_zero s⟩
  | succ k ih =>
    intro s
    obtain ⟨u, hu, -⟩ := step_next s
    rw [run_succ k hu]
    exact ih u

/-- Settles O51: the invariant holds at reset and every Step keeps it, and a true halt record says each clause. -/
theorem runsReportTruly : Obligations.RunsReportTruly := by
  unfold Obligations.RunsReportTruly
  intro memInit resetPc k t hlen h
  have hsize : t.mem.size = memInit.length :=
    run_keeps (P := fun u => u.mem.size = memInit.length) (fun _ _ hs hst => (step_mem_size hst).trans hs) rfl h
  have hinv : t.Inv := run_keeps stepKeepsInvariant (resetWith_inv resetPc hlen) h
  have hrec := hinv.2
  rw [← hsize]
  refine ⟨rfl, hinv, State.haltRecordTrue_of_running hrec, ?none, ?ended, ?misaligned, ?illegal, ?bounds⟩
  case none =>
    intro hr hc
    simp [((State.haltRecordTrue_none_iff hc).mp hrec).1] at hr
  case ended =>
    intro hc
    obtain ⟨-, hi, hpc⟩ := (State.haltRecordTrue_endOfProgram_iff hc).mp hrec
    exact ⟨hpc, hi⟩
  case misaligned =>
    intro hc
    obtain ⟨-, hi, hin, hmod⟩ := (State.haltRecordTrue_fetchMisaligned_iff hc).mp hrec
    exact ⟨hin, hmod, hi⟩
  case illegal =>
    intro hc
    obtain ⟨-, hi, hmod, hin, hd⟩ := (State.haltRecordTrue_illegalInstruction_iff hc).mp hrec
    exact ⟨hmod, hin, hi, hd⟩
  case bounds =>
    intro hc
    obtain ⟨-, hmod, hin, ⟨hi, hout⟩ | ⟨hword, hdata⟩⟩ := (State.haltRecordTrue_outOfBounds_iff hc).mp hrec
    · exact ⟨hmod, hin, .inl ⟨hout, hi⟩⟩
    · exact ⟨hmod, hin, .inr ⟨hword, hdata⟩⟩

/-- Settles O36: each code is the one `HaltCause.code` lists. -/
theorem haltCauseCodes : Obligations.HaltCauseCodes := ⟨rfl, rfl, rfl, rfl, rfl⟩

/-- The word at an address is made of its four bytes, the first the least significant (R52). -/
theorem Memory.wordAt_eq_wordOfBytes (m : Memory) (a : Nat) :
    m.wordAt a = wordOfBytes (m.readByte a) (m.readByte (a + 1)) (m.readByte (a + 2)) (m.readByte (a + 3)) := by
  have hempty (b : Byte) : 0#0 ++ b = b := BitVec.zero_width_append 0#0 b
  simp [Memory.wordAt, Memory.readBytes, wordOfBytes, hempty]

theorem decodeBytes_word_ok_iff (b0 b1 b2 b3 : Byte) (i : Instr) :
    decodeBytes [b0, b1, b2, b3] = .ok (i, []) ↔ decode (wordOfBytes b0 b1 b2 b3) = .ok i := by
  cases h : decode (wordOfBytes b0 b1 b2 b3) <;> simp [decodeBytes, h]

/-- Settles O39: the four bytes are the word the fetch reads. -/
theorem stepRunsDecodedInstruction : Obligations.StepRunsDecodedInstruction := by
  unfold Obligations.StepRunsDecodedInstruction
  intro s i hr h2 h3 hd
  rw [decodeBytes_word_ok_iff, ← Memory.wordAt_eq_wordOfBytes] at hd
  exact step_eq_exec hr h2 h3 hd

end Sys2Proof.Machine
end

section
/-! The pc after each operation (R17). -/

namespace Sys2Proof.Machine

open Sys2Proof.Claims

theorem branch_pc (k : BranchKind) (rs1 rs2 : RegIdx) (imm : Word) (s : State) :
    (branch k rs1 rs2 imm s).pc =
      if branchTaken k (s.reg rs1) (s.reg rs2) then s.pc + imm else s.pc + 4#32 := by
  rcases branch_cases k rs1 rs2 imm s with ⟨hb, h⟩ | ⟨hb, h⟩ <;> simp [hb, h]

theorem load_pc_of_running {w : Width} {e : Extension} {rd rs1 : RegIdx} {imm : Word} {s : State}
    (h : (load w e rd rs1 imm s).runState = .running) : (load w e rd rs1 imm s).pc = s.pc + 4#32 := by
  rcases load_cases w e rd rs1 imm s with ⟨-, hl⟩ | ⟨-, hl⟩
  · simp [hl]
  · simp [hl] at h

theorem store_pc_of_running {w : Width} {rs1 rs2 : RegIdx} {imm : Word} {s : State}
    (h : (store w rs1 rs2 imm s).runState = .running) : (store w rs1 rs2 imm s).pc = s.pc + 4#32 := by
  rcases store_cases w rs1 rs2 imm s with ⟨-, hs⟩ | ⟨-, hs⟩
  · simp [hs]
  · simp [hs] at h

/-- An instruction that halts a Running hart keeps the pc (R17, R151). -/
theorem exec_pc_of_halted {i : Instr} {s t : State} (hr : s.runState = .running) (h : exec i s = .next t)
    (ht : t.runState = .halted) : t.pc = s.pc := by
  rcases exec_next_cases h with hdone | ⟨a, w, -, -, rfl⟩
  · have := ht.symm.trans (hdone.run.1.trans hr)
    contradiction
  · rfl

/-- Settles O31: a halting instruction keeps the pc, and the pc of a completed one is that of its shared operation. -/
theorem nextPc : Obligations.NextPc := by
  unfold Obligations.NextPc
  intro i s t hr h
  refine ⟨exec_pc_of_halted hr h, fun ht => ?_⟩
  cases i with
  | jal | jalr => cases h; rfl
  | beq | bne | blt | bge | bltu | bgeu =>
    cases h
    simp [branch_pc, branchTaken, lessSigned, lessUnsigned]
  | lb | lh | lw | lbu | lhu => cases h; exact load_pc_of_running ht
  | sb | sh | sw => cases h; exact store_pc_of_running ht
  | lui | auipc => cases h; exact State.writeResult_pc ..
  | addi | slti | sltiu | xori | ori | andi | slli | srli | srai => cases h; exact State.writeResult_pc ..
  | add | sub | sll | slt | sltu | xor | srl | sra | or | and => cases h; exact State.writeResult_pc ..

end Sys2Proof.Machine
end

section
/-! What an instruction can read: the registers, the pc and memory, and no more (R19 to R21). -/

namespace Sys2Proof.Machine

/-- `u` has the registers, the pc and the memory of `s`; their run states and halt records may differ. -/
structure SameData (s u : State) : Prop where
  reg : ∀ j, u.reg j = s.reg j
  pc : u.pc = s.pc
  mem : u.mem = s.mem

namespace SameData

variable {s u : State}

theorem setPc (h : SameData s u) (t : Word) : SameData (s.setPc t) (u.setPc t) := ⟨h.reg, rfl, h.mem⟩

theorem advance (h : SameData s u) : SameData s.advance u.advance := ⟨h.reg, by simp [h.pc], h.mem⟩

theorem setMem (h : SameData s u) (m : Memory) : SameData (s.setMem m) (u.setMem m) := ⟨h.reg, h.pc, rfl⟩

theorem raise (h : SameData s u) (r : Raised) : SameData (s.raise r) (u.raise r) := ⟨h.reg, h.pc, h.mem⟩

theorem setReg (h : SameData s u) (rd : RegIdx) (v : Word) : SameData (s.setReg rd v) (u.setReg rd v) :=
  ⟨fun j => by simp [State.reg_setReg, h.reg], by simp [h.pc], by simp [h.mem]⟩

theorem writeResult (h : SameData s u) (rd : RegIdx) (v : Word) :
    SameData (s.writeResult rd v) (u.writeResult rd v) := (h.setReg rd v).advance

theorem jumpAndLink (h : SameData s u) (rd : RegIdx) (target : Word) :
    SameData (jumpAndLink rd target s) (jumpAndLink rd target u) := by
  unfold Machine.jumpAndLink linkAddress
  rw [h.pc]
  exact (h.setReg rd _).setPc target

theorem branch (h : SameData s u) (k : BranchKind) (rs1 rs2 : RegIdx) (imm : Word) :
    SameData (branch k rs1 rs2 imm s) (branch k rs1 rs2 imm u) := by
  unfold Machine.branch pcRelative
  rw [h.reg, h.reg, h.pc]
  split
  · exact h.setPc _
  · exact h.advance

theorem load (h : SameData s u) (w : Width) (e : Extension) (rd rs1 : RegIdx) (imm : Word) :
    SameData (load w e rd rs1 imm s) (load w e rd rs1 imm u) := by
  unfold Machine.load effectiveAddress
  rw [h.reg, h.mem]
  split
  · exact h.writeResult rd _
  · exact h.raise _

theorem store (h : SameData s u) (w : Width) (rs1 rs2 : RegIdx) (imm : Word) :
    SameData (store w rs1 rs2 imm s) (store w rs1 rs2 imm u) := by
  unfold Machine.store effectiveAddress
  rw [h.reg, h.reg, h.mem]
  split
  · exact (h.setMem _).advance
  · exact h.raise _

theorem opImm (h : SameData s u) (op : AluOp) (rd rs1 : RegIdx) (imm : Word) :
    SameData (opImm op rd rs1 imm s) (opImm op rd rs1 imm u) := by
  unfold Machine.opImm
  rw [h.reg]
  exact h.writeResult rd _

theorem opReg (h : SameData s u) (op : AluOp) (rd rs1 rs2 : RegIdx) :
    SameData (opReg op rd rs1 rs2 s) (opReg op rd rs1 rs2 u) := by
  unfold Machine.opReg
  rw [h.reg, h.reg]
  exact h.writeResult rd _

/-- From states with the same data an instruction goes to states with the same data. -/
theorem exec {t : State} (h : SameData s u) (i : Instr) (hx : exec i s = .next t) :
    ∃ v, Machine.exec i u = .next v ∧ SameData t v := by
  cases i with
  | lui rd imm => cases hx; exact ⟨_, rfl, h.writeResult rd imm⟩
  | auipc rd imm =>
    cases hx
    refine ⟨_, rfl, ?_⟩
    unfold pcRelative
    rw [h.pc]
    exact h.writeResult rd _
  | jal rd imm =>
    cases hx
    refine ⟨_, rfl, ?_⟩
    unfold pcRelative
    rw [h.pc]
    exact h.jumpAndLink rd _
  | jalr rd rs1 imm =>
    cases hx
    refine ⟨_, rfl, ?_⟩
    unfold jalrTarget
    rw [h.reg]
    exact h.jumpAndLink rd _
  | beq | bne | blt | bge | bltu | bgeu => cases hx; exact ⟨_, rfl, h.branch ..⟩
  | lb | lh | lw | lbu | lhu => cases hx; exact ⟨_, rfl, h.load ..⟩
  | sb | sh | sw => cases hx; exact ⟨_, rfl, h.store ..⟩
  | addi | slti | sltiu | xori | ori | andi | slli | srli | srai => cases hx; exact ⟨_, rfl, h.opImm ..⟩
  | add | sub | sll | slt | sltu | xor | srl | sra | or | and => cases hx; exact ⟨_, rfl, h.opReg ..⟩

end SameData

/-- Settles O45: states that differ in run state and halt record have the same data, which is all an instruction reads. -/
theorem haltRecordInvisible : Obligations.HaltRecordInvisible := by
  unfold Obligations.HaltRecordInvisible
  intro i s t r c w h
  have hsame : SameData s { s with runState := r, haltCause := c, haltInfo := w } := ⟨fun _ => rfl, rfl, rfl⟩
  obtain ⟨u, hu, hreg, hpc, hmem⟩ := hsame.exec i h
  exact ⟨u, hu, hreg, hpc, hmem⟩

end Sys2Proof.Machine
end

section
/-! Reads of memory as parts of the value last written there (R31, R32, R35 to R37). -/

namespace Sys2Proof.Machine

/-- Byte `j` of a read of `n` bytes is the byte at `a + j` (R31). -/
theorem Memory.extractLsb'_readBytes (m : Memory) (a : Nat) {n j : Nat} (hj : j < n) :
    (m.readBytes a n).extractLsb' (8 * j) 8 = m.readByte (a + j) := by
  ext i hi
  have hdiv : (8 * j + i) / 8 = j := by omega
  have hmod : (8 * j + i) % 8 = i := by omega
  have hlt : 8 * j + i < 8 * n := by omega
  rw [BitVec.getElem_extractLsb', Memory.getLsbD_readBytes, hdiv, hmod, decide_eq_true hlt, Bool.true_and,
    BitVec.getLsbD_eq_getElem hi]

/-- `n` bytes that are the bytes of `v` from byte `j` up read as that part of `v`. -/
theorem Memory.readBytes_eq_extractLsb' {k : Nat} {m : Memory} {a n j : Nat} {v : BitVec k}
    (h : ∀ i, i < n → m.readByte (a + i) = v.extractLsb' (8 * (j + i)) 8) :
    m.readBytes a n = v.extractLsb' (8 * j) (8 * n) := by
  ext i hi
  have hbit : 8 * (j + i / 8) + i % 8 = 8 * j + i := by omega
  rw [← BitVec.getLsbD_eq_getElem, Memory.getLsbD_readBytes, h (i / 8) (by omega), BitVec.getElem_extractLsb',
    BitVec.getLsbD_extractLsb', hbit, decide_eq_true hi, decide_eq_true (Nat.mod_lt i (by decide)), Bool.true_and,
    Bool.true_and]

/-- A read inside the bytes last written answers its part of the value, at every width (R36, R37). -/
theorem Memory.readBytes_writeBytes_of_inside {k : Nat} {m : Memory} (h : m.wf) {a n j p : Nat} (v : BitVec k)
    (ha : a + n ≤ m.size) (hp : j + p ≤ n) :
    (m.writeBytes a n v).readBytes (a + j) p = v.extractLsb' (8 * j) (8 * p) :=
  Memory.readBytes_eq_extractLsb' fun i hi => by
    rw [Nat.add_assoc, Memory.readByte_writeBytes_of_inside h v ha (by omega)]

/-- A read of the address and length just written answers the low bytes of the value (R37). -/
theorem Memory.readBytes_writeBytes_self {k : Nat} {m : Memory} (h : m.wf) {a n : Nat} (v : BitVec k)
    (ha : a + n ≤ m.size) : (m.writeBytes a n v).readBytes a n = v.extractLsb' 0 (8 * n) :=
  Memory.readBytes_writeBytes_of_inside (j := 0) h v ha (Nat.zero_add n).le

/-- A word written is the word at its address (R52). -/
theorem Memory.wordAt_writeBytes {m : Memory} (h : m.wf) {a : Nat} (v : Word) (ha : a + 4 ≤ m.size) :
    (m.writeBytes a 4 v).wordAt a = v := by
  rw [Memory.wordAt, Memory.readBytes_writeBytes_self h v ha, BitVec.setWidth_extractLsb'_of_le (by decide),
    BitVec.extractLsb'_eq_self]

/-- A word read through the port is the word at its address. -/
theorem Memory.read_word {m : Memory} {addr : Word} (h : addr.toNat + 4 ≤ m.size) :
    m.read addr .word = .ok (m.wordAt addr.toNat) := by
  rw [Memory.read_ok h, Memory.wordAt, BitVec.setWidth_eq]
  rfl

/-- A port read inside the bytes last written answers its part of the value (R36, R37). -/
theorem Memory.read_writeBytes_of_inside {k : Nat} {m : Memory} (h : m.wf) {a j n : Nat} {addr : Word} {w : Width}
    (v : BitVec k) (ha : a + n ≤ m.size) (haddr : addr.toNat = a + j) (hw : j + w.bytes ≤ n) :
    (m.writeBytes a n v).read addr w = .ok (v.extractLsb' (8 * j) (8 * w.bytes)) := by
  rw [Memory.read_ok (by rw [Memory.writeBytes_size]; omega), haddr,
    Memory.readBytes_writeBytes_of_inside h v ha hw]

/-- A memory in canonical form has at most 2^32 bytes (R7). -/
theorem Memory.size_le_of_wf {m : Memory} (h : m.wf) : m.size ≤ 4294967296 := (m.wf_iff.mp h).1

/-- An address sum that stays below 2^32 does not wrap. -/
theorem toNat_add_ofNat {a : Word} {j : Nat} (h : a.toNat + j < 4294967296) :
    (a + BitVec.ofNat 32 j).toNat = a.toNat + j := by
  rw [BitVec.toNat_add, BitVec.toNat_ofNat]
  omega

end Sys2Proof.Machine
end

section
/-! The statements about the memory port (R31 to R37, R43). -/

namespace Sys2Proof.Machine

/-- Settles O13: inside memory by the bytes of a read, past the end by the bounds test. -/
theorem memReadRule : Obligations.MemReadRule := by
  unfold Obligations.MemReadRule
  refine ⟨⟨rfl, rfl, rfl, rfl, rfl⟩, fun m addr w h => ?inside, fun m addr w h => Memory.read_error h⟩
  case inside => exact ⟨_, Memory.read_ok h, fun k hk => Memory.extractLsb'_readBytes m addr.toNat hk⟩

/-- Settles O14: inside memory by what a write of bytes does, past the end by the bounds test. -/
theorem memWriteRule : Obligations.MemWriteRule := by
  unfold Obligations.MemWriteRule
  refine ⟨fun m addr w k v hwf _ hb => ?inside, fun m addr w k v h => Memory.write_error v h⟩
  case inside =>
    exact ⟨_, Memory.write_ok v hb, Memory.writeBytes_size .., Memory.writeBytes_wf hwf v hb,
      fun j hj => Memory.readByte_writeBytes_of_inside hwf v hb hj,
      fun a ha => Memory.readByte_writeBytes_of_outside m v ha⟩

/-- Settles O15: the read covers exactly the bytes written, so it answers the low bytes of the value. -/
theorem memoryRoundTrip : Obligations.MemoryRoundTrip := by
  unfold Obligations.MemoryRoundTrip
  intro m addr w k v hwf hk hb
  refine ⟨_, Memory.write_ok v hb, ?_⟩
  rw [BitVec.setWidth_eq_extractLsb' hk]
  exact Memory.read_writeBytes_of_inside (j := 0) hwf v hb rfl (Nat.zero_add _).le

/-- A read answers OutOfBounds exactly when its access passes the end of memory (R33). -/
theorem Memory.read_error_iff (m : Memory) (addr : Word) (w : Width) :
    m.read addr w = .error (.outOfBounds addr) ↔ m.size < addr.toNat + w.bytes := by
  refine ⟨fun h => ?_, Memory.read_error⟩
  by_contra hb
  rw [Memory.read_ok (by omega)] at h
  contradiction

/-- A write answers OutOfBounds exactly when its access passes the end of memory (R33). -/
theorem Memory.write_error_iff {k : Nat} (m : Memory) (addr : Word) (w : Width) (v : BitVec k) :
    m.write addr w v = .error (.outOfBounds addr) ↔ m.size < addr.toNat + w.bytes := by
  refine ⟨fun h => ?_, Memory.write_error v⟩
  by_contra hb
  rw [Memory.write_ok v (by omega)] at h
  contradiction

/-- Settles O16: the bounds test is on natural numbers, so each clause is arithmetic on the length. -/
theorem boundsTestDoesNotWrap : Obligations.BoundsTestDoesNotWrap := by
  unfold Obligations.BoundsTestDoesNotWrap
  have hlast : (0xFFFFFFFC#32).toNat + Width.word.bytes = 4294967296 := rfl
  have hpast : (0xFFFFFFFE#32).toNat + Width.word.bytes = 4294967298 := rfl
  refine ⟨fun m addr w k v => ⟨Memory.read_error_iff m addr w, Memory.write_error_iff m addr w v⟩,
    fun m addr w v hm hw => ?wraps, fun m hm => Memory.read_error (by omega), fun m v hm => ?edge⟩
  case wraps => exact ⟨Memory.read_error (by omega), Memory.write_error v (by omega)⟩
  case edge => exact ⟨Memory.read_error (by omega), Memory.write_error v (by omega)⟩

/-- Storing one byte into a stored word replaces that byte of the word and no other (R36). -/
theorem Memory.wordAt_writeBytes_second {m : Memory} (h : m.wf) {a : Nat} (v : Word) (b : Byte)
    (ha : a + 4 ≤ m.size) :
    ((m.writeBytes a 4 v).writeBytes (a + 1) 1 b).wordAt a =
      wordOfBytes (v.extractLsb' 0 8) b (v.extractLsb' 16 8) (v.extractLsb' 24 8) := by
  have hwf : (m.writeBytes a 4 v).wf := Memory.writeBytes_wf h v ha
  have hkept (x : Nat) (hx : x < a + 1 ∨ a + 1 + 1 ≤ x) :=
    Memory.readByte_writeBytes_of_outside (m.writeBytes a 4 v) b hx
  have hword (j : Nat) (hj : j < 4) := Memory.readByte_writeBytes_of_inside h v ha hj
  have hnew : ((m.writeBytes a 4 v).writeBytes (a + 1) 1 b).readByte (a + 1) = b :=
    (Memory.readByte_writeByte_self hwf (a + 1) _).trans (BitVec.setWidth_eq b)
  rw [Memory.wordAt_eq_wordOfBytes, hnew, hkept a (by omega), hkept (a + 2) (by omega), hkept (a + 3) (by omega),
    hword 2 (by decide), hword 3 (by decide), ← hword 0 (by decide), Nat.add_zero]

/-- Settles O17: each read lies inside the word written, and the byte written lies inside the word read. -/
theorem widthsShareBytes : Obligations.WidthsShareBytes := by
  unfold Obligations.WidthsShareBytes
  intro m a hwf hb
  have hsize := Memory.size_le_of_wf hwf
  have haddr (j : Nat) (hj : j < 4) : (a + BitVec.ofNat 32 j).toNat = a.toNat + j := toNat_add_ofNat (by omega)
  have hread {addr : Word} (j : Nat) (w : Width) (h : addr.toNat = a.toNat + j) (hw : j + w.bytes ≤ 4) :=
    Memory.read_writeBytes_of_inside (addr := addr) hwf 0xDEADBEEF#32 hb h hw
  refine ⟨_, Memory.write_ok _ hb, hread 0 .byte rfl (by decide), hread 1 .byte (haddr 1 (by decide)) (by decide),
    hread 2 .byte (haddr 2 (by decide)) (by decide), hread 3 .byte (haddr 3 (by decide)) (by decide),
    hread 0 .halfWord rfl (by decide), hread 2 .halfWord (haddr 2 (by decide)) (by decide),
    hread 1 .halfWord (haddr 1 (by decide)) (by decide), fun b => ?narrow⟩
  case narrow =>
    have h1 := haddr 1 (by decide)
    have hnarrow : (a + 1#32).toNat + Width.byte.bytes ≤ (m.writeBytes a.toNat 4 0xDEADBEEF#32).size := by
      rw [h1, Memory.writeBytes_size, Width.bytes]
      omega
    refine ⟨_, Memory.write_ok b hnarrow, ?_⟩
    rw [h1, Memory.read_word (by simpa using hb)]
    exact congrArg _ (Memory.wordAt_writeBytes_second hwf 0xDEADBEEF#32 b hb)

/-- Settles O18: the sum is the adder's, and `dataAccess` gives it to every load and store. -/
theorem effectiveAddressWraps : Obligations.EffectiveAddressWraps := by
  unfold Obligations.EffectiveAddressWraps
  intro rs1 r imm s
  exact ⟨BitVec.toNat_add _ _, rfl, rfl, rfl, rfl, rfl, rfl, rfl, rfl⟩

end Sys2Proof.Machine
end

section
/-! Memory along a Step: what the probe places, what stores change, and what reads see of it (R29, R30, R46, R49). -/

namespace Sys2Proof.Machine

/-! ### The placed word -/

/-- The four bytes of a word make the word again (R35, R52). -/
theorem wordOfBytes_extractLsb' (v : Word) :
    wordOfBytes (v.extractLsb' 0 8) (v.extractLsb' 8 8) (v.extractLsb' 16 8) (v.extractLsb' 24 8) = v := by
  have hjoin (lo len : Nat) : v.extractLsb' (lo + 8) len ++ v.extractLsb' lo 8 = v.extractLsb' lo (len + 8) :=
    BitVec.extractLsb'_append_extractLsb'_eq_extractLsb' rfl
  rw [wordOfBytes, hjoin 16 8, hjoin 8 16, hjoin 0 24, BitVec.setWidth_eq, BitVec.extractLsb'_eq_self]

/-- A table word that decodes to an instruction decodes to it as a word. -/
theorem decode_of_decodeTableWord {nbits w : Nat} {i : Instr} (h : decodeTableWord nbits w = some i) :
    decode (tableWord nbits w) = .ok i := by
  simp only [decodeTableWord, bytesOfWord, decodeBytes, wordOfBytes_extractLsb'] at h
  cases hd : decode (tableWord nbits w) with
  | ok j => simpa [hd] using h
  | error e => simp [hd] at h

/-- Settles O40: the placed word lies at an aligned pc inside the grown memory, so the Step fetches it. -/
theorem placedWordRuns : Obligations.PlacedWordRuns := by
  unfold Obligations.PlacedWordRuns
  intro s nbits w i hwf hd
  have hmod : (s.pc &&& 0xFFFFFFFC#32).toNat % 4 = 0 := by
    rw [← low_bits_zero_iff]
    ext i hi
    interval_cases i <;> simp
  have hlt := (s.pc &&& 0xFFFFFFFC#32).isLt
  have hgrow : (s.mem.growTo ((s.pc &&& 0xFFFFFFFC#32).toNat + 4)).wf :=
    Memory.growTo_wf hwf (by rw [Config.maxMemLen]; omega)
  refine step_eq_exec rfl hmod ?inside ?word
  case inside => simp [State.withFetchWord]
  case word =>
    rw [← decode_of_decodeTableWord hd]
    exact congrArg decode (Memory.wordAt_writeBytes hgrow _ (by simp))

/-! ### What changes memory -/

/-- An instruction that makes no data access keeps memory (R30). -/
theorem exec_mem_of_no_access {i : Instr} {s t : State} (hd : dataAccess i s = none) (h : exec i s = .next t) :
    t.mem = s.mem := by
  rcases exec_cases i s with ⟨rd, v, hx⟩ | ⟨pc, hx⟩ | ⟨rd, pc, hx⟩ | ⟨a, w, v, ha, -, -⟩ | ⟨a, w, ha, -, -⟩
  · cases h.symm.trans hx; exact State.writeResult_mem ..
  · cases h.symm.trans hx; rfl
  · cases h.symm.trans hx; exact (jumpAndLink_spec rd pc s).2.1
  · simp [hd] at ha
  · simp [hd] at ha

theorem load_mem (w : Width) (e : Extension) (rd rs1 : RegIdx) (imm : Word) (s : State) :
    (load w e rd rs1 imm s).mem = s.mem := by
  rcases load_cases w e rd rs1 imm s with ⟨-, h⟩ | ⟨-, h⟩ <;> simp [h]

/-- A store changes a byte only inside its access, which lies inside memory (R32, R34). -/
theorem store_byte_changed {w : Width} {rs1 rs2 : RegIdx} {imm : Word} {s : State} {a : Nat}
    (h : (store w rs1 rs2 imm s).mem.readByte a ≠ s.mem.readByte a) :
    (s.reg rs1 + imm).toNat ≤ a ∧ a < (s.reg rs1 + imm).toNat + w.bytes ∧ a < s.mem.size := by
  rcases store_cases w rs1 rs2 imm s with ⟨hb, hs⟩ | ⟨-, hs⟩
  · by_contra hout
    refine h ?_
    rw [hs, State.advance_mem, State.setMem_mem, Memory.readByte_writeBytes_of_outside _ _ (by omega)]
  · exact absurd (by rw [hs, State.raise_mem]) h

/-- An instruction changes a byte only if it is a store, and only inside its access (R30, R32). -/
theorem exec_byte_changed {i : Instr} {s t : State} {a : Nat} (h : exec i s = .next t)
    (hne : t.mem.readByte a ≠ s.mem.readByte a) :
    ∃ ea w, dataAccess i s = some (ea, w) ∧
      (∃ rs1 rs2 imm, i = .sb rs1 rs2 imm ∨ i = .sh rs1 rs2 imm ∨ i = .sw rs1 rs2 imm) ∧
      ea.toNat ≤ a ∧ a < ea.toNat + w.bytes ∧ a < s.mem.size := by
  cases i with
  | sb rs1 rs2 imm => cases h; exact ⟨_, _, rfl, ⟨rs1, rs2, imm, .inl rfl⟩, store_byte_changed hne⟩
  | sh rs1 rs2 imm => cases h; exact ⟨_, _, rfl, ⟨rs1, rs2, imm, .inr (.inl rfl)⟩, store_byte_changed hne⟩
  | sw rs1 rs2 imm => cases h; exact ⟨_, _, rfl, ⟨rs1, rs2, imm, .inr (.inr rfl)⟩, store_byte_changed hne⟩
  | lb | lh | lw | lbu | lhu => cases h; exact absurd (by rw [load_mem]) hne
  | lui | auipc | jal | jalr | beq | bne | blt | bge | bltu | bgeu =>
    exact absurd (by rw [exec_mem_of_no_access rfl h]) hne
  | addi | slti | sltiu | xori | ori | andi | slli | srli | srai =>
    exact absurd (by rw [exec_mem_of_no_access rfl h]) hne
  | add | sub | sll | slt | sltu | xor | srl | sra | or | and =>
    exact absurd (by rw [exec_mem_of_no_access rfl h]) hne

/-- A Step keeps memory, or it is the execution of the instruction the word at the pc decodes to (R23, R151). -/
theorem step_mem_cases {s t : State} (h : step s = .next t) :
    t.mem = s.mem ∨
      s.runState = .running ∧ ∃ i, decode (s.mem.wordAt s.pc.toNat) = .ok i ∧ exec i s = .next t := by
  cases hr : s.runState with
  | halted => rw [step_halted hr] at h; cases h; exact .inl rfl
  | running =>
    rw [step_running hr] at h
    rcases stepRunning_cases s with ⟨-, hs⟩ | ⟨-, -, hs⟩ | ⟨-, -, -, hs⟩ | ⟨-, -, -, hs⟩ | ⟨i, -, -, hd, hs⟩
    · cases h.symm.trans hs; exact .inl rfl
    · cases h.symm.trans hs; exact .inl rfl
    · cases h.symm.trans hs; exact .inl rfl
    · cases h.symm.trans hs; exact .inl rfl
    · exact .inr ⟨rfl, i, hd, hs.symm.trans h⟩

/-- Settles O42: a Step that changes a byte executes an instruction, which is a store with the byte in its access. -/
theorem onlyStoresChangeMemory : Obligations.OnlyStoresChangeMemory := by
  unfold Obligations.OnlyStoresChangeMemory
  intro s t h
  refine ⟨step_mem_size h, fun a hne => ?_⟩
  obtain hmem | ⟨hr, i, hd, hx⟩ := step_mem_cases h
  · exact absurd (by rw [hmem]) hne
  · obtain ⟨ea, w, hacc, hstore, hin⟩ := exec_byte_changed hx hne
    exact ⟨hr, i, ea, w, hd, hacc, hstore, hin⟩

/-! ### What a store leaves for the next instruction -/

/-- A store inside memory completes (R135). -/
theorem store_of_inside {w : Width} {rs1 rs2 : RegIdx} {imm : Word} {s : State}
    (h : (s.reg rs1 + imm).toNat + w.bytes ≤ s.mem.size) :
    store w rs1 rs2 imm s = (s.setMem (s.mem.writeBytes (s.reg rs1 + imm).toNat w.bytes (s.reg rs2))).advance := by
  rcases store_cases w rs1 rs2 imm s with ⟨-, hs⟩ | ⟨hb, -⟩
  · exact hs
  · omega

/-- A load inside memory completes (R129). -/
theorem load_of_inside {w : Width} {e : Extension} {rd rs1 : RegIdx} {imm : Word} {s : State}
    (h : (s.reg rs1 + imm).toNat + w.bytes ≤ s.mem.size) :
    load w e rd rs1 imm s = s.writeResult rd (extend e (s.mem.readBytes (s.reg rs1 + imm).toNat w.bytes)) := by
  rcases load_cases w e rd rs1 imm s with ⟨-, hl⟩ | ⟨hb, -⟩
  · exact hl
  · omega

/-- Settles O43: the store completes and leaves its word at the pc of the next Step, which fetches it. -/
theorem storeSeenByNextFetch : Obligations.StoreSeenByNextFetch := by
  unfold Obligations.StoreSeenByNextFetch
  intro s rs1 rs2 imm j hr hwf hmod hsize hd haddr hj
  have hpc : (s.pc + 4#32).toNat = s.pc.toNat + 4 :=
    toNat_add_ofNat (by have := Memory.size_le_of_wf hwf; omega)
  have hin : (s.pc + 4#32).toNat + 4 ≤ s.mem.size := by omega
  have hstore : store .word rs1 rs2 imm s =
      (s.setMem (s.mem.writeBytes (s.pc + 4#32).toNat 4 (s.reg rs2))).advance := by
    rw [store_of_inside (by rw [haddr]; exact hin), haddr, Width.bytes]
  refine ⟨store .word rs1 rs2 imm s, step_eq_exec hr hmod (by omega) hd, by rw [hstore]; rfl, ?next⟩
  case next =>
    rw [hstore]
    refine step_eq_exec hr ?_ ?_ ?_
    · rw [State.advance_pc, State.setMem_pc, hpc]
      omega
    · simpa using hin
    · rw [← hj]
      exact congrArg decode (Memory.wordAt_writeBytes hwf _ hin)

/-- A load of the address and width of the store just before it answers the low bytes stored (R46). -/
theorem reg_load_store {s : State} (hwf : s.mem.wf) {w : Width} (e : Extension) {rd rs1 : RegIdx} (rs2 : RegIdx)
    {imm : Word} (hrd : rd ≠ 0#5) (h : (s.reg rs1 + imm).toNat + w.bytes ≤ s.mem.size) :
    (load w e rd rs1 imm (store w rs1 rs2 imm s)).reg rd = extend e ((s.reg rs2).extractLsb' 0 (8 * w.bytes)) := by
  rw [store_of_inside h, load_of_inside (by simpa using h), State.reg_writeResult, if_pos ⟨rfl, hrd⟩]
  exact congrArg _ (Memory.readBytes_writeBytes_self hwf _ h)

/-- Zero-extending the low `n` bits of a word masks the word (R8). -/
theorem extend_zext_extractLsb'_zero (x : Word) {n : Nat} (hn : n ≤ 32) :
    extend .zext (x.extractLsb' 0 n) = x &&& BitVec.ofNat 32 (2 ^ n - 1) := by
  have hpow : 2 ^ n ≤ 2 ^ 32 := Nat.pow_le_pow_right (by decide) hn
  have hpos : 0 < 2 ^ n := Nat.two_pow_pos n
  apply BitVec.eq_of_toNat_eq
  rw [extend, ← BitVec.setWidth_eq_extractLsb' hn, BitVec.toNat_and, BitVec.toNat_setWidth, BitVec.toNat_setWidth,
    BitVec.toNat_ofNat, Nat.mod_eq_of_lt (by omega : 2 ^ n - 1 < 2 ^ 32), Nat.and_two_pow_sub_one_eq_mod,
    Nat.mod_eq_of_lt ((Nat.mod_lt _ hpos).trans_le hpow)]

/-- Settles O44, width by width: the load answers the low bytes stored, and a mask of the register is those bytes. -/
theorem loadReturnsStore : Obligations.LoadReturnsStore := by
  unfold Obligations.LoadReturnsStore
  intro s rd rs1 rs2 imm hwf hrd
  refine ⟨fun h => ⟨_, _, rfl, rfl, ?word⟩, fun h => ⟨_, _, rfl, rfl, ?half⟩, fun h => ⟨_, _, rfl, rfl, ?byte⟩⟩
  case word =>
    exact (reg_load_store hwf .zext rs2 hrd h).trans
      ((extend_zext_extractLsb'_zero _ (by decide)).trans BitVec.and_allOnes)
  case half => exact (reg_load_store hwf .zext rs2 hrd h).trans (extend_zext_extractLsb'_zero _ (by decide))
  case byte => exact (reg_load_store hwf .zext rs2 hrd h).trans (extend_zext_extractLsb'_zero _ (by decide))

end Sys2Proof.Machine
end

section
/-! The decoder opcode by opcode: the layout an opcode selects, and what a word with it decodes to (R61 to R69). -/

namespace Sys2Proof

/-! ### The opcodes -/

theorem layoutOf_eq_none_iff (op : BitVec 7) : layoutOf op = none ↔
    op ∉ [0x33#7, 0x13#7, 0x03#7, 0x67#7, 0x23#7, 0x63#7, 0x37#7, 0x17#7, 0x6F#7] := by
  unfold layoutOf
  split <;> simp_all

/-- An opcode is one of the nine mapped ones, or selects no layout (R61). -/
theorem opcode_cases (op : BitVec 7) :
    op = 0b0110011#7 ∨ op = 0b0010011#7 ∨ op = 0b0000011#7 ∨ op = 0b1100111#7 ∨ op = 0b0100011#7 ∨
      op = 0b1100011#7 ∨ op = 0b0110111#7 ∨ op = 0b0010111#7 ∨ op = 0b1101111#7 ∨ layoutOf op = none := by
  rw [layoutOf_eq_none_iff]
  simp only [List.mem_cons, List.not_mem_nil]
  tauto

/-! ### The decoder's record -/

theorem decodeFields_of_unmapped {raw : Word} (h : layoutOf (opcodeOf raw) = none) :
    decodeFields raw =
      { legal := false, raw := raw, opcode := opcodeOf raw, layout := none, rd := none, rs1 := none, rs2 := none,
        funct3 := none, funct7 := none, imm := none } := by
  simp only [decodeFields, h]

theorem decodeFields_of_layout {raw : Word} {l : Layout} (h : layoutOf (opcodeOf raw) = some l) :
    decodeFields raw =
      { legal := true, raw := raw, opcode := opcodeOf raw, layout := some l,
        rd := present l.hasRd (rdOf raw), rs1 := present l.hasRs1 (rs1Of raw), rs2 := present l.hasRs2 (rs2Of raw),
        funct3 := present l.hasFunct3 (funct3Of raw), funct7 := present l.hasFunct7 (funct7Of raw),
        imm := l.imm raw } := by
  simp only [decodeFields, h]

@[simp] theorem decodeFields_layout (raw : Word) : (decodeFields raw).layout = layoutOf (opcodeOf raw) := by
  cases h : layoutOf (opcodeOf raw) with
  | none => rw [decodeFields_of_unmapped h]
  | some l => rw [decodeFields_of_layout h]

@[simp] theorem decodeFields_imm (raw : Word) :
    (decodeFields raw).imm = (layoutOf (opcodeOf raw)).bind fun l => l.imm raw := by
  cases h : layoutOf (opcodeOf raw) with
  | none => rw [decodeFields_of_unmapped h]; rfl
  | some l => rw [decodeFields_of_layout h]; rfl

/-! ### The instruction of a word, opcode by opcode -/

/-- What `decode` answers on a word with a mapped opcode, given what its function bits select (R67, R69). -/
def answer (raw : Word) : Option Instr → Except DecodeReject Instr
  | some i => .ok i
  | none => .error (.unknownFunction raw)

@[simp] theorem answer_eq_ok_iff (raw : Word) (o : Option Instr) (i : Instr) :
    answer raw o = .ok i ↔ o = some i := by
  cases o <;> simp [answer]

@[simp] theorem answer_eq_unknownFunction_iff (raw : Word) (o : Option Instr) :
    answer raw o = .error (.unknownFunction raw) ↔ o = none := by
  cases o <;> simp [answer]

theorem decode_of_unmapped {raw : Word} (h : layoutOf (opcodeOf raw) = none) :
    decode raw = .error (.unmappedOpcode raw) := by
  rw [decode, decodeFields_of_unmapped h]
  rfl

/-- A word with a mapped opcode decodes to what its function bits select from the fields of its layout (R66, R68). -/
theorem decode_of_opcode {raw : Word} {op : BitVec 7} {l : Layout} (hop : opcodeOf raw = op)
    (hl : layoutOf op = some l) :
    decode raw = answer raw (select
      { legal := true, raw := raw, opcode := op, layout := some l,
        rd := present l.hasRd (rdOf raw), rs1 := present l.hasRs1 (rs1Of raw), rs2 := present l.hasRs2 (rs2Of raw),
        funct3 := present l.hasFunct3 (funct3Of raw), funct7 := present l.hasFunct7 (funct7Of raw),
        imm := l.imm raw }) := by
  subst hop
  rw [decode, decodeFields_of_layout hl, if_pos rfl]
  cases select _ <;> rfl

section
variable {raw : Word} {f3 : BitVec 3} {f7 : BitVec 7}

theorem decode_lui (hop : opcodeOf raw = 0b0110111#7) : decode raw = .ok (.lui (rdOf raw) (immU raw)) :=
  decode_of_opcode hop rfl

theorem decode_auipc (hop : opcodeOf raw = 0b0010111#7) : decode raw = .ok (.auipc (rdOf raw) (immU raw)) :=
  decode_of_opcode hop rfl

theorem decode_jal (hop : opcodeOf raw = 0b1101111#7) : decode raw = .ok (.jal (rdOf raw) (immJ raw)) :=
  decode_of_opcode hop rfl

theorem decode_jalr (hop : opcodeOf raw = 0b1100111#7) (hf3 : funct3Of raw = f3) :
    decode raw = answer raw (selectJalr f3 (rdOf raw) (rs1Of raw) (immI raw)) :=
  hf3 ▸ decode_of_opcode hop rfl

theorem decode_branch (hop : opcodeOf raw = 0b1100011#7) (hf3 : funct3Of raw = f3) :
    decode raw = answer raw (selectBranch f3 (rs1Of raw) (rs2Of raw) (immB raw)) :=
  hf3 ▸ decode_of_opcode hop rfl

theorem decode_load (hop : opcodeOf raw = 0b0000011#7) (hf3 : funct3Of raw = f3) :
    decode raw = answer raw (selectLoad f3 (rdOf raw) (rs1Of raw) (immI raw)) :=
  hf3 ▸ decode_of_opcode hop rfl

theorem decode_store (hop : opcodeOf raw = 0b0100011#7) (hf3 : funct3Of raw = f3) :
    decode raw = answer raw (selectStore f3 (rs1Of raw) (rs2Of raw) (immS raw)) :=
  hf3 ▸ decode_of_opcode hop rfl

theorem decode_opImm (hop : opcodeOf raw = 0b0010011#7) (hf3 : funct3Of raw = f3) :
    decode raw = answer raw (selectOpImm f3 (rdOf raw) (rs1Of raw) (immI raw)) :=
  hf3 ▸ decode_of_opcode hop rfl

theorem decode_op (hop : opcodeOf raw = 0b0110011#7) (hf7 : funct7Of raw = f7) (hf3 : funct3Of raw = f3) :
    decode raw = answer raw (selectOp f7 f3 (rdOf raw) (rs1Of raw) (rs2Of raw)) :=
  hf7 ▸ hf3 ▸ decode_of_opcode hop rfl

end

end Sys2Proof
end

section
/-! The immediates of a word: their bits, their ranges, and that a layout's fields put together are the word again
(R55 to R60, R63). -/

namespace Sys2Proof

/-! ### Bits -/

section
variable (raw : Word) {k : Nat} (hk : k < 32)
include hk

theorem getLsbD_immI : (immI raw).getLsbD k = if 11 ≤ k then raw.getLsbD 31 else raw.getLsbD (k + 20) := by
  simp only [immI, BitVec.getLsbD_signExtend, BitVec.getLsbD_extractLsb', BitVec.msb_eq_getLsbD_last]
  interval_cases k <;> simp

theorem getLsbD_immS : (immS raw).getLsbD k =
    if 11 ≤ k then raw.getLsbD 31 else if 5 ≤ k then raw.getLsbD (k + 20) else raw.getLsbD (k + 7) := by
  simp only [immS, BitVec.getLsbD_signExtend, BitVec.getLsbD_append, BitVec.getLsbD_extractLsb',
    BitVec.msb_eq_getLsbD_last]
  interval_cases k <;> simp

theorem getLsbD_immB : (immB raw).getLsbD k =
    if 12 ≤ k then raw.getLsbD 31 else if k = 11 then raw.getLsbD 7 else if 5 ≤ k then raw.getLsbD (k + 20)
    else if 1 ≤ k then raw.getLsbD (k + 7) else false := by
  simp only [immB, BitVec.getLsbD_signExtend, BitVec.getLsbD_append, BitVec.getLsbD_extractLsb',
    BitVec.msb_eq_getLsbD_last]
  interval_cases k <;> simp

theorem getLsbD_immU : (immU raw).getLsbD k = if 12 ≤ k then raw.getLsbD k else false := by
  simp only [immU, BitVec.getLsbD_setWidth, BitVec.getLsbD_append, BitVec.getLsbD_extractLsb']
  interval_cases k <;> simp

theorem getLsbD_immJ : (immJ raw).getLsbD k =
    if 20 ≤ k then raw.getLsbD 31 else if 12 ≤ k then raw.getLsbD k else if k = 11 then raw.getLsbD 20
    else if 1 ≤ k then raw.getLsbD (k + 20) else false := by
  simp only [immJ, BitVec.getLsbD_signExtend, BitVec.getLsbD_append, BitVec.getLsbD_extractLsb',
    BitVec.msb_eq_getLsbD_last]
  interval_cases k <;> simp

end

/-! ### Ranges -/

/-- A sign-extended value has the range of its own width. -/
theorem toInt_signExtend_bounds {n : Nat} (hn : n ≤ 32) (x : BitVec n) :
    -2 ^ (n - 1) ≤ (x.signExtend 32).toInt ∧ (x.signExtend 32).toInt ≤ 2 ^ (n - 1) - 1 := by
  rw [BitVec.toInt_signExtend_of_le hn]
  exact ⟨BitVec.le_toInt x, BitVec.toInt_le⟩

/-- A word whose low `n` bits are 0 is a multiple of 2^n. -/
theorem mod_of_getLsbD {w : Word} {n : Nat} (h : ∀ k, k < n → w.getLsbD k = false) : w.toNat % 2 ^ n = 0 := by
  refine Nat.eq_of_testBit_eq fun k => ?_
  by_cases hk : k < n
  · simpa [Nat.testBit_mod_two_pow, hk, BitVec.testBit_toNat] using h k hk
  · simp [Nat.testBit_mod_two_pow, hk]

/-- A word that is even unsigned is even signed. -/
theorem toInt_emod_two {w : Word} (h : w.toNat % 2 = 0) : w.toInt % 2 = 0 := by
  rw [BitVec.toInt_eq_toNat_cond]
  split <;> omega

theorem imm12Ok_immI (raw : Word) : imm12Ok (immI raw) :=
  decide_eq_true (toInt_signExtend_bounds (n := 12) (by decide) _)

theorem imm12Ok_immS (raw : Word) : imm12Ok (immS raw) :=
  decide_eq_true (toInt_signExtend_bounds (n := 12) (by decide) _)

theorem imm13Ok_immB (raw : Word) : imm13Ok (immB raw) := by
  have heven : (immB raw).toNat % 2 ^ 1 = 0 := mod_of_getLsbD fun k hk => by
    rw [getLsbD_immB raw (by omega)]
    simp [Nat.lt_one_iff.mp hk]
  have hbounds : -4096 ≤ (immB raw).toInt ∧ (immB raw).toInt ≤ 4095 :=
    toInt_signExtend_bounds (n := 13) (by decide) _
  have hpar := toInt_emod_two heven
  exact Bool.and_eq_true_iff.mpr ⟨decide_eq_true (by omega), decide_eq_true heven⟩

theorem imm21Ok_immJ (raw : Word) : imm21Ok (immJ raw) := by
  have heven : (immJ raw).toNat % 2 ^ 1 = 0 := mod_of_getLsbD fun k hk => by
    rw [getLsbD_immJ raw (by omega)]
    simp [Nat.lt_one_iff.mp hk]
  have hbounds : -1048576 ≤ (immJ raw).toInt ∧ (immJ raw).toInt ≤ 1048575 :=
    toInt_signExtend_bounds (n := 21) (by decide) _
  have hpar := toInt_emod_two heven
  exact Bool.and_eq_true_iff.mpr ⟨decide_eq_true (by omega), decide_eq_true heven⟩

theorem immUpperOk_immU (raw : Word) : immUpperOk (immU raw) := by
  have hlow : (immU raw).toNat % 2 ^ 12 = 0 := mod_of_getLsbD fun k hk => by
    rw [getLsbD_immU raw (by omega), if_neg (by omega)]
  exact decide_eq_true hlow

/-! ### A word from its fields -/

section
variable {raw : Word}

theorem encodeR_fields (hop : opcodeOf raw = 0b0110011#7) :
    encodeR (funct7Of raw) (funct3Of raw) (rdOf raw) (rs1Of raw) (rs2Of raw) = raw := by
  rw [encodeR, ← hop]
  refine BitVec.eq_of_getLsbD_eq fun k hk => ?_
  simp only [place, opcodeOf, funct3Of, funct7Of, rdOf, rs1Of, rs2Of, BitVec.getLsbD_or, BitVec.getLsbD_shiftLeft,
    BitVec.getLsbD_setWidth, BitVec.getLsbD_extractLsb']
  interval_cases k <;> simp

theorem encodeI_fields {op : BitVec 7} (hop : opcodeOf raw = op) :
    encodeI op (funct3Of raw) (rdOf raw) (rs1Of raw) (immI raw) = raw := by
  rw [encodeI, ← hop]
  refine BitVec.eq_of_getLsbD_eq fun k hk => ?_
  simp only [place, opcodeOf, funct3Of, rdOf, rs1Of, BitVec.getLsbD_or, BitVec.getLsbD_shiftLeft,
    BitVec.getLsbD_setWidth, BitVec.getLsbD_extractLsb']
  interval_cases k <;> simp [getLsbD_immI, -BitVec.getLsbD_eq_getElem]

theorem encodeS_fields (hop : opcodeOf raw = 0b0100011#7) :
    encodeS (funct3Of raw) (rs1Of raw) (rs2Of raw) (immS raw) = raw := by
  rw [encodeS, ← hop]
  refine BitVec.eq_of_getLsbD_eq fun k hk => ?_
  simp only [place, opcodeOf, funct3Of, rs1Of, rs2Of, BitVec.getLsbD_or, BitVec.getLsbD_shiftLeft,
    BitVec.getLsbD_setWidth, BitVec.getLsbD_extractLsb']
  interval_cases k <;> simp [getLsbD_immS, -BitVec.getLsbD_eq_getElem]

theorem encodeB_fields (hop : opcodeOf raw = 0b1100011#7) :
    encodeB (funct3Of raw) (rs1Of raw) (rs2Of raw) (immB raw) = raw := by
  rw [encodeB, ← hop]
  refine BitVec.eq_of_getLsbD_eq fun k hk => ?_
  simp only [place, opcodeOf, funct3Of, rs1Of, rs2Of, BitVec.getLsbD_or, BitVec.getLsbD_shiftLeft,
    BitVec.getLsbD_setWidth, BitVec.getLsbD_extractLsb']
  interval_cases k <;> simp [getLsbD_immB, -BitVec.getLsbD_eq_getElem]

theorem encodeU_fields {op : BitVec 7} (hop : opcodeOf raw = op) :
    encodeU op (rdOf raw) (immU raw) = raw := by
  rw [encodeU, ← hop]
  refine BitVec.eq_of_getLsbD_eq fun k hk => ?_
  simp only [place, opcodeOf, rdOf, BitVec.getLsbD_or, BitVec.getLsbD_shiftLeft, BitVec.getLsbD_setWidth,
    BitVec.getLsbD_extractLsb']
  interval_cases k <;> simp [getLsbD_immU, -BitVec.getLsbD_eq_getElem]

theorem encodeJ_fields (hop : opcodeOf raw = 0b1101111#7) : encodeJ (rdOf raw) (immJ raw) = raw := by
  rw [encodeJ, ← hop]
  refine BitVec.eq_of_getLsbD_eq fun k hk => ?_
  simp only [place, opcodeOf, rdOf, BitVec.getLsbD_or, BitVec.getLsbD_shiftLeft, BitVec.getLsbD_setWidth,
    BitVec.getLsbD_extractLsb']
  interval_cases k <;> simp [getLsbD_immJ, -BitVec.getLsbD_eq_getElem]

end

/-- An immediate shift is the layout-I word of its discriminant and amount (R56). -/
theorem encodeShift_eq_encodeI (f3 : BitVec 3) (rd rs1 : RegIdx) (imm : Word) :
    encodeShift (imm.extractLsb' 5 7) f3 rd rs1 (imm.extractLsb' 0 5) = encodeI 0b0010011#7 f3 rd rs1 imm := by
  refine BitVec.eq_of_getLsbD_eq fun k hk => ?_
  simp only [encodeShift, encodeI, place, BitVec.getLsbD_or, BitVec.getLsbD_shiftLeft, BitVec.getLsbD_setWidth,
    BitVec.getLsbD_extractLsb']
  interval_cases k <;> simp

/-- The discriminant of an immediate shift is `imm[11:5]`, the word's bits 31 to 25 (R56). -/
theorem immI_extractLsb'_discriminant (raw : Word) : (immI raw).extractLsb' 5 7 = funct7Of raw := by
  refine BitVec.eq_of_getLsbD_eq fun k hk => ?_
  simp only [funct7Of, BitVec.getLsbD_extractLsb', getLsbD_immI raw (show 5 + k < 32 by omega)]
  interval_cases k <;> simp

/-- The amount of an immediate shift is `imm[4:0]`, the word's bits 24 to 20 (R56). -/
theorem immI_extractLsb'_amount (raw : Word) : (immI raw).extractLsb' 0 5 = rs2Of raw := by
  refine BitVec.eq_of_getLsbD_eq fun k hk => ?_
  simp only [rs2Of, BitVec.getLsbD_extractLsb', getLsbD_immI raw (show 0 + k < 32 by omega)]
  interval_cases k <;> simp

end Sys2Proof
end

section
/-! The decoder and the encoder agree (R54 to R60, R67). -/

namespace Sys2Proof

/-! ### Immediate shifts -/

/-- What the discriminant `imm[11:5]` and `funct3` of an immediate shift select (R56, R114 to R116). -/
def selectShift (funct7 : BitVec 7) (funct3 : BitVec 3) (rd rs1 : RegIdx) (shamt : BitVec 5) : Option Instr :=
  match funct7, funct3 with
  | 0b0000000#7, 0b001#3 => some (.slli rd rs1 shamt)
  | 0b0000000#7, 0b101#3 => some (.srli rd rs1 shamt)
  | 0b0100000#7, 0b101#3 => some (.srai rd rs1 shamt)
  | _, _ => none

theorem selectShift_eq_none_iff (f7 : BitVec 7) (f3 : BitVec 3) (rd rs1 : RegIdx) (shamt : BitVec 5) :
    selectShift f7 f3 rd rs1 shamt = none ↔
      ¬(f7 = 0b0000000#7 ∧ (f3 = 0b001#3 ∨ f3 = 0b101#3)) ∧ ¬(f7 = 0b0100000#7 ∧ f3 = 0b101#3) := by
  unfold selectShift
  split <;> simp_all

theorem selectOpImm_eq_selectShift {f3 : BitVec 3} (hs : f3 = 0b001#3 ∨ f3 = 0b101#3) (rd rs1 : RegIdx)
    (imm : Word) :
    selectOpImm f3 rd rs1 imm = selectShift (imm.extractLsb' 5 7) f3 rd rs1 (imm.extractLsb' 0 5) := by
  obtain rfl | rfl := hs
  · simp only [selectOpImm]
    split
    · next h7 => rw [h7]; rfl
    · next h7 => exact ((selectShift_eq_none_iff ..).mpr (by simpa using h7)).symm
  · simp only [selectOpImm]
    split
    · next h7 => rw [h7]; rfl
    · next h7 => rw [h7]; rfl
    · next h0 h32 => exact ((selectShift_eq_none_iff ..).mpr (by simpa using ⟨h0, h32⟩)).symm

theorem decode_shift {raw : Word} {f3 : BitVec 3} {f7 : BitVec 7} (hop : opcodeOf raw = 0b0010011#7)
    (hf7 : funct7Of raw = f7) (hf3 : funct3Of raw = f3) (hs : f3 = 0b001#3 ∨ f3 = 0b101#3) :
    decode raw = answer raw (selectShift f7 f3 (rdOf raw) (rs1Of raw) (rs2Of raw)) := by
  rw [decode_opImm hop hf3, selectOpImm_eq_selectShift hs, immI_extractLsb'_discriminant, immI_extractLsb'_amount, hf7]

/-! ### Decoding an encoded word, layout by layout -/

theorem funct7Of_encodeShift (f7 : BitVec 7) (f3 : BitVec 3) (rd rs1 : RegIdx) (shamt : BitVec 5) :
    funct7Of (encodeShift f7 f3 rd rs1 shamt) = f7 := by
  rw [← immI_extractLsb'_discriminant, immI_encodeShift_discriminant]

theorem rs2Of_encodeShift (f7 : BitVec 7) (f3 : BitVec 3) (rd rs1 : RegIdx) (shamt : BitVec 5) :
    rs2Of (encodeShift f7 f3 rd rs1 shamt) = shamt := by
  rw [← immI_extractLsb'_amount, immI_encodeShift_amount]

section
variable (f3 : BitVec 3) (rd rs1 rs2 : RegIdx) {imm : Word}

theorem decode_encodeR (f7 : BitVec 7) : decode (encodeR f7 f3 rd rs1 rs2) =
    answer (encodeR f7 f3 rd rs1 rs2) (selectOp f7 f3 rd rs1 rs2) := by
  rw [decode_op (opcodeOf_encodeR ..) (funct7Of_encodeR ..) (funct3Of_encodeR ..), rdOf_encodeR, rs1Of_encodeR,
    rs2Of_encodeR]

theorem decode_encodeI_opImm (h : imm12Ok imm) : decode (encodeI 0b0010011#7 f3 rd rs1 imm) =
    answer (encodeI 0b0010011#7 f3 rd rs1 imm) (selectOpImm f3 rd rs1 imm) := by
  rw [decode_opImm (opcodeOf_encodeI ..) (funct3Of_encodeI ..), rdOf_encodeI, rs1Of_encodeI, immI_encodeI _ _ _ _ h]

theorem decode_encodeI_load (h : imm12Ok imm) : decode (encodeI 0b0000011#7 f3 rd rs1 imm) =
    answer (encodeI 0b0000011#7 f3 rd rs1 imm) (selectLoad f3 rd rs1 imm) := by
  rw [decode_load (opcodeOf_encodeI ..) (funct3Of_encodeI ..), rdOf_encodeI, rs1Of_encodeI, immI_encodeI _ _ _ _ h]

theorem decode_encodeI_jalr (h : imm12Ok imm) : decode (encodeI 0b1100111#7 f3 rd rs1 imm) =
    answer (encodeI 0b1100111#7 f3 rd rs1 imm) (selectJalr f3 rd rs1 imm) := by
  rw [decode_jalr (opcodeOf_encodeI ..) (funct3Of_encodeI ..), rdOf_encodeI, rs1Of_encodeI, immI_encodeI _ _ _ _ h]

theorem decode_encodeS (h : imm12Ok imm) : decode (encodeS f3 rs1 rs2 imm) =
    answer (encodeS f3 rs1 rs2 imm) (selectStore f3 rs1 rs2 imm) := by
  rw [decode_store (opcodeOf_encodeS ..) (funct3Of_encodeS ..), rs1Of_encodeS, rs2Of_encodeS, immS_encodeS _ _ _ h]

theorem decode_encodeB (h : imm13Ok imm) : decode (encodeB f3 rs1 rs2 imm) =
    answer (encodeB f3 rs1 rs2 imm) (selectBranch f3 rs1 rs2 imm) := by
  rw [decode_branch (opcodeOf_encodeB ..) (funct3Of_encodeB ..), rs1Of_encodeB, rs2Of_encodeB, immB_encodeB _ _ _ h]

theorem decode_encodeShift (f7 : BitVec 7) (shamt : BitVec 5) (hs : f3 = 0b001#3 ∨ f3 = 0b101#3) :
    decode (encodeShift f7 f3 rd rs1 shamt) =
      answer (encodeShift f7 f3 rd rs1 shamt) (selectShift f7 f3 rd rs1 shamt) := by
  rw [decode_shift (opcodeOf_encodeShift ..) (funct7Of_encodeShift ..) (funct3Of_encodeShift ..) hs, rdOf_encodeShift,
    rs1Of_encodeShift, rs2Of_encodeShift]

theorem decode_encodeU_lui (h : immUpperOk imm) : decode (encodeU 0b0110111#7 rd imm) = .ok (.lui rd imm) := by
  rw [decode_lui (opcodeOf_encodeU ..), rdOf_encodeU, immU_encodeU _ _ h]

theorem decode_encodeU_auipc (h : immUpperOk imm) : decode (encodeU 0b0010111#7 rd imm) = .ok (.auipc rd imm) := by
  rw [decode_auipc (opcodeOf_encodeU ..), rdOf_encodeU, immU_encodeU _ _ h]

theorem decode_encodeJ (h : imm21Ok imm) : decode (encodeJ rd imm) = .ok (.jal rd imm) := by
  rw [decode_jal (opcodeOf_encodeJ ..), rdOf_encodeJ, immJ_encodeJ _ h]

end

/-- The word of a well-formed instruction decodes to it. -/
theorem decode_encode {i : Instr} (h : i.wellFormed) : decode i.encode = .ok i := by
  cases i with
  | lui => exact decode_encodeU_lui _ h
  | auipc => exact decode_encodeU_auipc _ h
  | jal => exact decode_encodeJ _ h
  | jalr => exact (decode_encodeI_jalr _ _ _ h).trans rfl
  | beq | bne | blt | bge | bltu | bgeu => exact (decode_encodeB _ _ _ h).trans rfl
  | lb | lh | lw | lbu | lhu => exact (decode_encodeI_load _ _ _ h).trans rfl
  | sb | sh | sw => exact (decode_encodeS _ _ _ h).trans rfl
  | addi | slti | sltiu | xori | ori | andi => exact (decode_encodeI_opImm _ _ _ h).trans rfl
  | slli => exact (decode_encodeShift _ _ _ _ _ (.inl rfl)).trans rfl
  | srli | srai => exact (decode_encodeShift _ _ _ _ _ (.inr rfl)).trans rfl
  | add | sub | sll | slt | sltu | xor | srl | sra | or | and => exact (decode_encodeR ..).trans rfl

theorem decodeBytes_bytesOfWord_append (w : Word) (rest : List Byte) {i : Instr} (h : decode w = .ok i) :
    decodeBytes (bytesOfWord w ++ rest) = .ok (i, rest) := by
  simp [bytesOfWord, decodeBytes, Machine.wordOfBytes_extractLsb', h]

/-- Settles O1, layout by layout: each field comes back from its place, and so does an immediate in its range. -/
theorem decodeAfterEncode : Obligations.DecodeAfterEncode := by
  unfold Obligations.DecodeAfterEncode
  exact fun i rest h => decodeBytes_bytesOfWord_append i.encode rest (decode_encode h)

/-! ### Encoding what a word decodes to -/

section
variable {f3 : BitVec 3} {rd rs1 rs2 : RegIdx} {imm : Word} {i : Instr}

theorem selectOp_encode {f7 : BitVec 7} (h : selectOp f7 f3 rd rs1 rs2 = some i) :
    i.wellFormed ∧ i.encode = encodeR f7 f3 rd rs1 rs2 := by
  unfold selectOp at h
  split at h <;> cases h <;> exact ⟨rfl, rfl⟩

theorem selectLoad_encode (h : selectLoad f3 rd rs1 imm = some i) :
    i.wellFormed = imm12Ok imm ∧ i.encode = encodeI 0b0000011#7 f3 rd rs1 imm := by
  unfold selectLoad at h
  split at h <;> cases h <;> exact ⟨rfl, rfl⟩

theorem selectJalr_encode (h : selectJalr f3 rd rs1 imm = some i) :
    i.wellFormed = imm12Ok imm ∧ i.encode = encodeI 0b1100111#7 f3 rd rs1 imm := by
  unfold selectJalr at h
  split at h <;> cases h
  exact ⟨rfl, rfl⟩

theorem selectStore_encode (h : selectStore f3 rs1 rs2 imm = some i) :
    i.wellFormed = imm12Ok imm ∧ i.encode = encodeS f3 rs1 rs2 imm := by
  unfold selectStore at h
  split at h <;> cases h <;> exact ⟨rfl, rfl⟩

theorem selectBranch_encode (h : selectBranch f3 rs1 rs2 imm = some i) :
    i.wellFormed = imm13Ok imm ∧ i.encode = encodeB f3 rs1 rs2 imm := by
  unfold selectBranch at h
  split at h <;> cases h <;> exact ⟨rfl, rfl⟩

theorem selectShift_encode {f7 : BitVec 7} {shamt : BitVec 5} (h : selectShift f7 f3 rd rs1 shamt = some i) :
    i.wellFormed ∧ i.encode = encodeShift f7 f3 rd rs1 shamt := by
  unfold selectShift at h
  split at h <;> cases h <;> exact ⟨rfl, rfl⟩

/-- The immediate shifts are the rows of OP-IMM whose immediate needs no check. -/
theorem selectOpImm_encode (himm : imm12Ok imm) (h : selectOpImm f3 rd rs1 imm = some i) :
    i.wellFormed ∧ i.encode = encodeI 0b0010011#7 f3 rd rs1 imm := by
  by_cases hs : f3 = 0b001#3 ∨ f3 = 0b101#3
  · rw [selectOpImm_eq_selectShift hs] at h
    obtain ⟨hwf, henc⟩ := selectShift_encode h
    exact ⟨hwf, henc.trans (encodeShift_eq_encodeI ..)⟩
  · unfold selectOpImm at h
    split at h
    case h_1 | h_2 | h_3 | h_4 | h_5 | h_6 => cases h; exact ⟨himm, rfl⟩
    case h_7 | h_8 => simp at hs
    case h_9 => cases h

end

/-- A word that decodes has a mapped opcode, and is the encoding of what its function bits select. -/
theorem encode_decode {raw : Word} {i : Instr} (h : decode raw = .ok i) : i.wellFormed ∧ i.encode = raw := by
  obtain hop | hop | hop | hop | hop | hop | hop | hop | hop | hnone := opcode_cases (opcodeOf raw)
  · rw [decode_op hop rfl rfl, answer_eq_ok_iff] at h
    obtain ⟨hwf, henc⟩ := selectOp_encode h
    exact ⟨hwf, henc.trans (encodeR_fields hop)⟩
  · rw [decode_opImm hop rfl, answer_eq_ok_iff] at h
    obtain ⟨hwf, henc⟩ := selectOpImm_encode (imm12Ok_immI raw) h
    exact ⟨hwf, henc.trans (encodeI_fields hop)⟩
  · rw [decode_load hop rfl, answer_eq_ok_iff] at h
    obtain ⟨hwf, henc⟩ := selectLoad_encode h
    exact ⟨hwf.trans (imm12Ok_immI raw), henc.trans (encodeI_fields hop)⟩
  · rw [decode_jalr hop rfl, answer_eq_ok_iff] at h
    obtain ⟨hwf, henc⟩ := selectJalr_encode h
    exact ⟨hwf.trans (imm12Ok_immI raw), henc.trans (encodeI_fields hop)⟩
  · rw [decode_store hop rfl, answer_eq_ok_iff] at h
    obtain ⟨hwf, henc⟩ := selectStore_encode h
    exact ⟨hwf.trans (imm12Ok_immS raw), henc.trans (encodeS_fields hop)⟩
  · rw [decode_branch hop rfl, answer_eq_ok_iff] at h
    obtain ⟨hwf, henc⟩ := selectBranch_encode h
    exact ⟨hwf.trans (imm13Ok_immB raw), henc.trans (encodeB_fields hop)⟩
  · cases (decode_lui hop).symm.trans h
    exact ⟨immUpperOk_immU raw, encodeU_fields hop⟩
  · cases (decode_auipc hop).symm.trans h
    exact ⟨immUpperOk_immU raw, encodeU_fields hop⟩
  · cases (decode_jal hop).symm.trans h
    exact ⟨imm21Ok_immJ raw, encodeJ_fields hop⟩
  · cases (decode_of_unmapped hnone).symm.trans h

/-- Settles O2, opcode by opcode: the fields and the immediate of a layout put together are the word. -/
theorem encodeAfterDecode : Obligations.EncodeAfterDecode := by
  unfold Obligations.EncodeAfterDecode
  exact fun _ _ h => encode_decode h

end Sys2Proof
end

section
/-! The match and mask table, and the words of no row (R67, R69, R72, R146). -/

namespace Sys2Proof

open Sys2Proof.Machine Sys2Proof.Claims

/-! ### Rows -/

/-- The word of every instruction is a word of its row. -/
theorem encode_and_rowMask (i : Instr) : i.encode &&& i.rowMask = i.rowMatch := by
  cases i with
  | lui | auipc => exact (Laws.TableRow.encodeU_masked ..).trans rfl
  | jal => exact (Laws.TableRow.encodeJ_masked ..).trans rfl
  | jalr | lb | lh | lw | lbu | lhu => exact (Laws.TableRow.encodeI_masked ..).trans rfl
  | beq | bne | blt | bge | bltu | bgeu => exact (Laws.TableRow.encodeB_masked ..).trans rfl
  | sb | sh | sw => exact (Laws.TableRow.encodeS_masked ..).trans rfl
  | addi | slti | sltiu | xori | ori | andi => exact (Laws.TableRow.encodeI_masked ..).trans rfl
  | slli | srli | srai => exact (Laws.TableRow.encodeShift_masked ..).trans rfl
  | add | sub | sll | slt | sltu | xor | srl | sra | or | and => exact (Laws.TableRow.encodeR_masked ..).trans rfl

section
variable {raw mask code : Word} (h : raw &&& mask = code)
include h

/-- A mask that keeps all of the opcode leaves the opcode of the row. -/
theorem opcodeOf_of_masked (hm : opcodeOf mask = BitVec.allOnes 7) : opcodeOf raw = opcodeOf code := by
  rw [← h, opcodeOf, opcodeOf, BitVec.extractLsb'_and, ← opcodeOf, ← opcodeOf, hm, BitVec.and_allOnes]

theorem funct3Of_of_masked (hm : funct3Of mask = BitVec.allOnes 3) : funct3Of raw = funct3Of code := by
  rw [← h, funct3Of, funct3Of, BitVec.extractLsb'_and, ← funct3Of, ← funct3Of, hm, BitVec.and_allOnes]

theorem funct7Of_of_masked (hm : funct7Of mask = BitVec.allOnes 7) : funct7Of raw = funct7Of code := by
  rw [← h, funct7Of, funct7Of, BitVec.extractLsb'_and, ← funct7Of, ← funct7Of, hm, BitVec.and_allOnes]

end

/-- A word of a row decodes to an instruction of that row. -/
theorem decode_of_row {raw : Word} {i : Instr} (h : raw &&& i.rowMask = i.rowMatch) :
    ∃ j, decode raw = .ok j ∧ j.rowMatch = i.rowMatch ∧ j.rowMask = i.rowMask := by
  cases i <;> simp only [Instr.rowMask, Instr.rowMatch] at h
  case lui => exact ⟨_, decode_lui (opcodeOf_of_masked h rfl), rfl, rfl⟩
  case auipc => exact ⟨_, decode_auipc (opcodeOf_of_masked h rfl), rfl, rfl⟩
  case jal => exact ⟨_, decode_jal (opcodeOf_of_masked h rfl), rfl, rfl⟩
  case jalr => exact ⟨_, decode_jalr (opcodeOf_of_masked h rfl) (funct3Of_of_masked h rfl), rfl, rfl⟩
  case beq | bne | blt | bge | bltu | bgeu =>
    exact ⟨_, decode_branch (opcodeOf_of_masked h rfl) (funct3Of_of_masked h rfl), rfl, rfl⟩
  case lb | lh | lw | lbu | lhu =>
    exact ⟨_, decode_load (opcodeOf_of_masked h rfl) (funct3Of_of_masked h rfl), rfl, rfl⟩
  case sb | sh | sw => exact ⟨_, decode_store (opcodeOf_of_masked h rfl) (funct3Of_of_masked h rfl), rfl, rfl⟩
  case addi | slti | sltiu | xori | ori | andi =>
    exact ⟨_, decode_opImm (opcodeOf_of_masked h rfl) (funct3Of_of_masked h rfl), rfl, rfl⟩
  case slli =>
    exact ⟨_, decode_shift (opcodeOf_of_masked h rfl) (funct7Of_of_masked h rfl) (funct3Of_of_masked h rfl)
      (.inl rfl), rfl, rfl⟩
  case srli | srai =>
    exact ⟨_, decode_shift (opcodeOf_of_masked h rfl) (funct7Of_of_masked h rfl) (funct3Of_of_masked h rfl)
      (.inr rfl), rfl, rfl⟩
  case add | sub | sll | slt | sltu | xor | srl | sra | or | and =>
    exact ⟨_, decode_op (opcodeOf_of_masked h rfl) (funct7Of_of_masked h rfl) (funct3Of_of_masked h rfl), rfl, rfl⟩

theorem row_of_decode {raw : Word} {i : Instr} (h : decode raw = .ok i) : raw &&& i.rowMask = i.rowMatch := by
  rw [← (encode_decode h).2, encode_and_rowMask]

/-- Settles O3: a word decodes to one instruction, so the rows it meets are that instruction's. -/
theorem decodeFollowsTable : Obligations.DecodeFollowsTable := by
  unfold Obligations.DecodeFollowsTable
  refine ⟨fun _ _ => row_of_decode, fun _ _ => decode_of_row, fun raw i j hi hj => ?_⟩
  obtain ⟨i', hdi, hmatch, hmask⟩ := decode_of_row hi
  obtain ⟨j', hdj, hmatch', hmask'⟩ := decode_of_row hj
  cases hdi.symm.trans hdj
  exact ⟨hmatch.symm.trans hmatch', hmask.symm.trans hmask'⟩

/-! ### Words that select no instruction -/

theorem funct3_cases (f3 : BitVec 3) : f3 = 0b000#3 ∨ f3 = 0b001#3 ∨ f3 = 0b010#3 ∨ f3 = 0b011#3 ∨ f3 = 0b100#3 ∨
    f3 = 0b101#3 ∨ f3 = 0b110#3 ∨ f3 = 0b111#3 := by
  decide +revert

theorem selectJalr_eq_none_iff (f3 : BitVec 3) (rd rs1 : RegIdx) (imm : Word) :
    selectJalr f3 rd rs1 imm = none ↔ f3 ≠ 0b000#3 := by
  unfold selectJalr
  split <;> simp_all

theorem selectBranch_eq_none_iff (f3 : BitVec 3) (rs1 rs2 : RegIdx) (imm : Word) :
    selectBranch f3 rs1 rs2 imm = none ↔ f3 = 0b010#3 ∨ f3 = 0b011#3 := by
  obtain rfl | rfl | rfl | rfl | rfl | rfl | rfl | rfl := funct3_cases f3 <;> simp [selectBranch]

theorem selectLoad_eq_none_iff (f3 : BitVec 3) (rd rs1 : RegIdx) (imm : Word) :
    selectLoad f3 rd rs1 imm = none ↔ f3 = 0b011#3 ∨ f3 = 0b110#3 ∨ f3 = 0b111#3 := by
  obtain rfl | rfl | rfl | rfl | rfl | rfl | rfl | rfl := funct3_cases f3 <;> simp [selectLoad]

theorem selectStore_eq_none_iff (f3 : BitVec 3) (rs1 rs2 : RegIdx) (imm : Word) :
    selectStore f3 rs1 rs2 imm = none ↔ 3 ≤ f3.toNat := by
  obtain rfl | rfl | rfl | rfl | rfl | rfl | rfl | rfl := funct3_cases f3 <;> simp [selectStore]

/-- Of OP-IMM only the shifts have words that select nothing. -/
theorem selectOpImm_eq_none_iff (f3 : BitVec 3) (rd rs1 : RegIdx) (imm : Word) :
    selectOpImm f3 rd rs1 imm = none ↔
      (f3 = 0b001#3 ∧ imm.extractLsb' 5 7 ≠ 0b0000000#7) ∨
      (f3 = 0b101#3 ∧ imm.extractLsb' 5 7 ≠ 0b0000000#7 ∧ imm.extractLsb' 5 7 ≠ 0b0100000#7) := by
  by_cases hs : f3 = 0b001#3 ∨ f3 = 0b101#3
  · rw [selectOpImm_eq_selectShift hs, selectShift_eq_none_iff]
    obtain rfl | rfl := hs <;> simp
  · obtain rfl | rfl | rfl | rfl | rfl | rfl | rfl | rfl := funct3_cases f3 <;> simp [selectOpImm] at hs ⊢

theorem selectOp_eq_none_iff (f7 : BitVec 7) (f3 : BitVec 3) (rd rs1 rs2 : RegIdx) :
    selectOp f7 f3 rd rs1 rs2 = none ↔
      (f7 = 0b0100000#7 ∧ f3 ≠ 0b000#3 ∧ f3 ≠ 0b101#3) ∨ (f7 ≠ 0b0000000#7 ∧ f7 ≠ 0b0100000#7) := by
  by_cases h0 : f7 = 0b0000000#7
  · subst h0
    obtain rfl | rfl | rfl | rfl | rfl | rfl | rfl | rfl := funct3_cases f3 <;> simp [selectOp]
  by_cases h32 : f7 = 0b0100000#7
  · subst h32
    obtain rfl | rfl | rfl | rfl | rfl | rfl | rfl | rfl := funct3_cases f3 <;> simp [selectOp]
  · unfold selectOp
    split <;> simp_all

theorem wordAt_of_fetches {s : State} {raw : Word} (hf : Fetches s raw) : s.mem.wordAt s.pc.toNat = raw := by
  obtain ⟨-, -, -, hword⟩ := hf
  exact hword

/-- A Step that fetches a word of no instruction halts with IllegalInstruction and the word (R146, R151). -/
theorem step_of_rejected {s : State} {raw : Word} (hf : Fetches s raw) (hd : ∀ i, decode raw ≠ .ok i) :
    ∃ t, step s = .next t ∧ HaltedWith s t .illegalInstruction raw := by
  obtain ⟨hrun, hmod, hin, rfl⟩ := hf
  refine ⟨s.raise (.illegalInstruction (s.mem.wordAt s.pc.toNat)), ?step, ?halted⟩
  case step =>
    rw [step_running hrun]
    rcases stepRunning_cases s with ⟨hend, -⟩ | ⟨-, hmod', -⟩ | ⟨-, -, hout, -⟩ | ⟨-, -, -, h⟩ | ⟨i, -, -, hi, -⟩
    · omega
    · exact absurd hmod hmod'
    · omega
    · exact h
    · exact absurd hi (hd i)
  case halted => exact ⟨rfl, rfl, rfl, rfl, fun _ => rfl, rfl, fun _ => rfl⟩

/-- Settles O7, opcode by opcode: the function bits that select nothing. -/
theorem illegalFunctionCodes : Obligations.IllegalFunctionCodes := by
  unfold Obligations.IllegalFunctionCodes
  refine ⟨fun raw => ?list, fun s raw hf hd => step_of_rejected hf fun i => by simp [hd]⟩
  case list =>
    obtain hop | hop | hop | hop | hop | hop | hop | hop | hop | hnone := opcode_cases (opcodeOf raw)
    · simp [decode_op hop rfl rfl, hop, selectOp_eq_none_iff]
    · simp [decode_opImm hop rfl, hop, selectOpImm_eq_none_iff, immI_extractLsb'_discriminant]
    · simp [decode_load hop rfl, hop, selectLoad_eq_none_iff]
    · simp [decode_jalr hop rfl, hop, selectJalr_eq_none_iff]
    · simp [decode_store hop rfl, hop, selectStore_eq_none_iff]
    · simp [decode_branch hop rfl, hop, selectBranch_eq_none_iff]
    · simp [decode_lui hop, hop]
    · simp [decode_auipc hop, hop]
    · simp [decode_jal hop, hop]
    · have hop := (layoutOf_eq_none_iff _).mp hnone
      simp only [List.mem_cons, List.not_mem_nil, or_false, not_or] at hop
      simp [decode_of_unmapped hnone, hop]

/-- Settles O8: a word that decodes meets the row of its instruction, and neither named word decodes. -/
theorem illegalWordHalts : Obligations.IllegalWordHalts := by
  unfold Obligations.IllegalWordHalts
  refine ⟨fun s raw hf hrow => step_of_rejected hf fun i hi => hrow i (row_of_decode hi), fun s hf => ?named⟩
  case named =>
    have hzero : decode 0x00000000#32 = .error (.unmappedOpcode 0x00000000#32) := by decide
    have hones : decode 0xFFFFFFFF#32 = .error (.unmappedOpcode 0xFFFFFFFF#32) := by decide
    obtain hf | hf := hf
    · rw [wordAt_of_fetches hf]
      exact step_of_rejected hf fun i => by simp [hzero]
    · rw [wordAt_of_fetches hf]
      exact step_of_rejected hf fun i => by simp [hones]

end Sys2Proof
end

section
/-! The decoder's record (R61 to R66). -/

namespace Sys2Proof

/-- Settles O5: the bits of each immediate, and the selection among them by layout. -/
theorem immediateBits : Obligations.ImmediateBits := by
  unfold Obligations.ImmediateBits
  refine fun raw k hk => ⟨getLsbD_immI raw hk, getLsbD_immS raw hk, getLsbD_immB raw hk, getLsbD_immU raw hk,
    getLsbD_immJ raw hk, ?select⟩
  case select =>
    rw [decodeFields_imm, decodeFields_layout]
    rfl

/-- Settles O4, layout by layout. -/
theorem fieldsByLayout : Obligations.FieldsByLayout := by
  unfold Obligations.FieldsByLayout
  intro raw
  simp only [decodeFields_layout]
  refine ⟨fun hl => ?R, fun hl => ?I, fun hl => ?S, fun hl => ?B, fun hl => ?U, fun hl => ?J⟩
  all_goals
    rw [decodeFields_of_layout hl]
    exact ⟨rfl, rfl, rfl, rfl, rfl, rfl⟩

/-- Settles O6: the nine opcodes, and that the decoder delivers nothing for any other. -/
theorem opcodeMap : Obligations.OpcodeMap := by
  unfold Obligations.OpcodeMap
  refine ⟨rfl, rfl, rfl, rfl, rfl, rfl, rfl, rfl, rfl, fun raw hop => ?_⟩
  have hnone : layoutOf (opcodeOf raw) = none := (layoutOf_eq_none_iff _).mpr hop
  rw [decodeFields_of_unmapped hnone, decode_of_unmapped hnone]
  exact ⟨rfl, rfl, rfl, rfl, rfl, rfl, rfl, rfl, rfl, rfl⟩

/-- Settles O10, by decoding each word. -/
theorem workedWordsDecode : Obligations.WorkedWordsDecode := by
  unfold Obligations.WorkedWordsDecode
  decide

end Sys2Proof
end

section
/-! The ALU, the comparisons and the shift amount (R77 to R88, R90). -/

namespace Sys2Proof.Machine

/-! ### Comparisons -/

@[simp] theorem lessSigned_iff (a b : Word) : lessSigned a b = true ↔ a.toInt < b.toInt := decide_eq_true_iff

@[simp] theorem lessUnsigned_iff (a b : Word) : lessUnsigned a b = true ↔ a.toNat < b.toNat := decide_eq_true_iff

@[simp] theorem boolWord_eq_one_iff (c : Bool) : boolWord c = 1#32 ↔ c = true := by cases c <;> decide

@[simp] theorem boolWord_eq_zero_iff (c : Bool) : boolWord c = 0#32 ↔ c = false := by cases c <;> decide

theorem alu_slt (a b : Word) : alu .slt a b = boolWord (lessSigned a b) := rfl

theorem alu_sltu (a b : Word) : alu .sltu a b = boolWord (lessUnsigned a b) := rfl

/-- Settles O21: the two comparisons are exact, and `boolWord` gives the word of each. -/
theorem aluComparisons : Obligations.AluComparisons := by
  unfold Obligations.AluComparisons
  intro a b
  simp only [alu_slt, alu_sltu, boolWord, lessSigned_iff, lessUnsigned_iff, and_self]

/-- Exclusive or is zero exactly of equal words, which is how the ALU tells them apart (R90). -/
theorem alu_xor_eq_zero_iff (a b : Word) : alu .xor a b = 0#32 ↔ a = b := BitVec.xor_eq_zero_iff

/-- Settles O22: each condition is its comparison, and the ALU's answer is the word of the same comparison. -/
theorem branchComparator : Obligations.BranchComparator := by
  unfold Obligations.BranchComparator
  refine ⟨rfl, rfl, fun a b => ⟨⟨.eq, rfl, ?eq⟩, ⟨.ne, rfl, ?ne⟩, ⟨.lt, rfl, ?lt⟩, ⟨.ge, rfl, ?ge⟩,
    ⟨.ltu, rfl, ?ltu⟩, ⟨.geu, rfl, ?geu⟩⟩⟩
  case eq | ne => simp [branchTaken, alu_xor_eq_zero_iff]
  case lt | ge => simp [branchTaken, alu_slt, ← Bool.not_eq_true]
  case ltu | geu => simp [branchTaken, alu_sltu, ← Bool.not_eq_true]

/-! ### Sums, differences and the bitwise operations -/

theorem toNat_sub_emod (a b : Word) : ((a - b).toNat : Int) = ((a.toNat : Int) - (b.toNat : Int)) % 4294967296 := by
  have ha := a.isLt
  have hb := b.isLt
  rw [BitVec.toNat_sub]
  omega

/-- Settles O19: the adder's sum read either way, the difference as a sum with the two's complement, and each bitwise
operation at one bit. -/
theorem aluArithmeticAndLogic : Obligations.AluArithmeticAndLogic := by
  unfold Obligations.AluArithmeticAndLogic
  refine fun a b => ⟨BitVec.toNat_add a b, BitVec.toInt_add a b, toNat_sub_emod a b, ?complement, fun k _ =>
    ⟨BitVec.getLsbD_xor, BitVec.getLsbD_or, BitVec.getLsbD_and⟩⟩
  case complement =>
    calc a - b = a + -b := BitVec.sub_eq_add_neg a b
      _ = a + (~~~b + 1#32) := by rw [BitVec.neg_eq_not_add]
      _ = a + ~~~b + 1#32 := (BitVec.add_assoc ..).symm

/-! ### Shifts -/

/-- The low 5 bits are the remainder by 32 (R88). -/
theorem shiftAmount_eq (b : Word) : shiftAmount b = b.toNat % 32 := by
  rw [shiftAmount, BitVec.extractLsb'_toNat, Nat.shiftRight_zero]

theorem alu_sll (a b : Word) : alu .sll a b = a <<< (b.toNat % 32) := by rw [alu, shiftAmount_eq]

theorem alu_srl (a b : Word) : alu .srl a b = a >>> (b.toNat % 32) := by rw [alu, shiftAmount_eq]

theorem alu_sra (a b : Word) : alu .sra a b = a.sshiftRight (b.toNat % 32) := by rw [alu, shiftAmount_eq]

/-- A logical right shift, with the bound of the word in place of the out-of-range reads. -/
theorem getLsbD_ushiftRight_word (a : Word) (k n : Nat) :
    (a >>> n).getLsbD k = if k + n ≤ 31 then a.getLsbD (k + n) else false := by
  rw [BitVec.getLsbD_ushiftRight, Nat.add_comm n k]
  split
  · rfl
  · exact BitVec.getLsbD_of_ge a _ (by omega)

theorem getLsbD_shiftLeft_word (a : Word) {k : Nat} (hk : k < 32) (n : Nat) :
    (a <<< n).getLsbD k = if n ≤ k then a.getLsbD (k - n) else false := by
  rw [BitVec.getLsbD_shiftLeft]
  split
  · next hn => simp [hk, Nat.not_lt.mpr hn]
  · next hn => simp [Nat.lt_of_not_le hn]

theorem getLsbD_sshiftRight_word (a : Word) {k : Nat} (hk : k < 32) (n : Nat) :
    (a.sshiftRight n).getLsbD k = if k + n ≤ 31 then a.getLsbD (k + n) else a.getLsbD 31 := by
  simp [BitVec.getLsbD_sshiftRight, BitVec.msb_eq_getLsbD_last, Nat.not_le.mpr hk, Nat.add_comm n k,
    Nat.lt_succ_iff (n := 31)]

/-- An arithmetic shift is the floor of the quotient by the power of two (R85). -/
theorem toInt_sshiftRight_word (a : Word) (n : Nat) : (a.sshiftRight n).toInt = a.toInt / 2 ^ n := by
  rw [BitVec.toInt_sshiftRight, Int.shiftRight_eq_div_pow]
  norm_cast

/-- Settles O20: every shift is the word's shift by `b` modulo 32. -/
theorem aluShifts : Obligations.AluShifts := by
  unfold Obligations.AluShifts
  intro a b
  simp only [alu_sll, alu_srl, alu_sra]
  refine ⟨fun k hk => ?bits, toInt_sshiftRight_word a _, fun b' hb => ?sameAmount, fun hb => ?zeroAmount⟩
  case bits =>
    exact ⟨getLsbD_shiftLeft_word a hk _, getLsbD_ushiftRight_word a k _, getLsbD_sshiftRight_word a hk _⟩
  case sameAmount => rw [hb]; exact ⟨rfl, rfl, rfl⟩
  case zeroAmount => rw [hb]; exact ⟨BitVec.shiftLeft_zero a, BitVec.ushiftRight_zero a, BitVec.sshiftRight_zero⟩

end Sys2Proof.Machine
end

section
/-! What completes an instruction, in the words of the statements: a result written, a jump, a branch (R13, R17). -/

namespace Sys2Proof.Machine

open Sys2Proof.Claims

theorem memoryKept_of_eq {s t : State} (h : t.mem = s.mem) : MemoryKept s t := by
  rw [MemoryKept, h]
  exact ⟨rfl, fun _ => rfl⟩

theorem wrote_writeResult (s : State) (rd : RegIdx) (v : Word) :
    Wrote s (s.writeResult rd v) rd v (s.pc + 4#32) :=
  ⟨fun j => State.reg_writeResult s rd j v, State.writeResult_pc .., memoryKept_of_eq (State.writeResult_mem ..),
    State.writeResult_runState .., State.writeResult_haltCause .., State.writeResult_haltInfo ..⟩

theorem wrote_jumpAndLink (s : State) (rd : RegIdx) (target : Word) :
    Wrote s (jumpAndLink rd target s) rd (s.pc + 4#32) target := by
  obtain ⟨hpc, hmem, hrun, hcause, hinfo, hreg⟩ := jumpAndLink_spec rd target s
  exact ⟨hreg, hpc, memoryKept_of_eq hmem, hrun, hcause, hinfo⟩

theorem wentTo_setPc (s : State) (t : Word) : WentTo s (s.setPc t) t :=
  ⟨fun _ => rfl, rfl, memoryKept_of_eq rfl, rfl, rfl, rfl⟩

theorem wentTo_branch (k : BranchKind) (rs1 rs2 : RegIdx) (imm : Word) (s : State) :
    WentTo s (branch k rs1 rs2 imm s)
      (if branchTaken k (s.reg rs1) (s.reg rs2) then s.pc + imm else s.pc + 4#32) := by
  rcases branch_cases k rs1 rs2 imm s with ⟨hb, h⟩ | ⟨hb, h⟩
  · rw [h, if_pos hb]
    exact wentTo_setPc s _
  · rw [h, hb, if_neg Bool.false_ne_true]
    exact wentTo_setPc s _

end Sys2Proof.Machine
end

section
/-! The ALU operation the decoded fields choose, and the operation an instruction performs (R89, R91). -/

namespace Sys2Proof.Machine

open Sys2Proof.Claims

/-! ### The code the decoded fields give -/

@[simp] theorem decodeFields_opcode (raw : Word) : (decodeFields raw).opcode = opcodeOf raw := by
  cases h : layoutOf (opcodeOf raw) with
  | none => rw [decodeFields_of_unmapped h]
  | some l => rw [decodeFields_of_layout h]

/-- The `alu_op` code of an OP-IMM word (R89): `alt`, which is `imm[10]`, counts for `funct3` = 101 only. -/
def opImmCode (alt : BitVec 1) (funct3 : BitVec 3) : BitVec 4 :=
  ((if funct3 = 0b101#3 then alt else 0#1) ++ funct3).setWidth 4

theorem opImmCode_of_ne {f3 : BitVec 3} (alt : BitVec 1) (h : f3 ≠ 0b101#3) :
    opImmCode alt f3 = opImmCode 0#1 f3 := by
  simp only [opImmCode, if_neg h]

section
variable {raw : Word}

theorem aluCodeOf_op (hop : opcodeOf raw = 0b0110011#7) :
    aluCodeOf (decodeFields raw) = some (((funct7Of raw).extractLsb' 5 1 ++ funct3Of raw).setWidth 4) := by
  rw [decodeFields_of_layout (l := .R) (by rw [hop]; rfl), hop]
  rfl

theorem aluCodeOf_opImm (hop : opcodeOf raw = 0b0010011#7) :
    aluCodeOf (decodeFields raw) = some (opImmCode ((immI raw).extractLsb' 10 1) (funct3Of raw)) := by
  rw [decodeFields_of_layout (l := .I) (by rw [hop]; rfl), hop, opImmCode, apply_ite (· ++ funct3Of raw),
    apply_ite (BitVec.setWidth 4), apply_ite some]
  rfl

/-- Every group that uses the ALU but OP and OP-IMM chooses ADD (R89, R91). -/
theorem choosesAlu_add {holds : AluOp → Prop}
    (hop : opcodeOf raw ∈ [0x03#7, 0x23#7, 0x37#7, 0x17#7, 0x6F#7, 0x67#7]) (h : holds .add) :
    ChoosesAlu raw .add holds := by
  refine ⟨0b0000#4, ?_, rfl, h⟩
  simp only [List.mem_cons, List.not_mem_nil, or_false] at hop
  obtain hop | hop | hop | hop | hop | hop := hop <;> simp only [aluCodeOf, decodeFields_opcode, hop]

end

/-! ### The operation an instruction performs -/

/-- A shift by the amount field of an immediate is a shift by the immediate: only the low 5 bits count (R88, R114). -/
theorem alu_shamtOperand {op : AluOp} (hop : op ∈ [.sll, .srl, .sra]) (a imm : Word) :
    alu op a (shamtOperand (imm.extractLsb' 0 5)) = alu op a imm := by
  have hamount : shiftAmount (shamtOperand (imm.extractLsb' 0 5)) = shiftAmount imm := by
    rw [shiftAmount, shamtOperand, BitVec.extractLsb'_setWidth_of_le (by decide), BitVec.extractLsb'_eq_self,
      shiftAmount]
  simp only [List.mem_cons, List.not_mem_nil, or_false] at hop
  obtain rfl | rfl | rfl := hop <;> rw [alu, hamount, alu]

theorem opImm_shamtOperand {op : AluOp} (hop : op ∈ [.sll, .srl, .sra]) (rd rs1 : RegIdx) (imm : Word) (s : State) :
    opImm op rd rs1 (shamtOperand (imm.extractLsb' 0 5)) s = opImm op rd rs1 imm s := by
  rw [opImm, alu_shamtOperand hop, opImm]

section
variable {f3 : BitVec 3} {rd rs1 rs2 : RegIdx} {imm : Word} {i : Instr}

theorem exec_of_selectOp {f7 : BitVec 7} (h : selectOp f7 f3 rd rs1 rs2 = some i) :
    ∃ op, AluOp.ofCode ((f7.extractLsb' 5 1 ++ f3).setWidth 4) = some op ∧
      ∀ s, exec i s = .next (opReg op rd rs1 rs2 s) := by
  unfold selectOp at h
  split at h <;> cases h
  all_goals exact ⟨_, rfl, fun _ => rfl⟩

theorem exec_of_selectShift {f7 : BitVec 7} (h : selectShift f7 f3 rd rs1 (imm.extractLsb' 0 5) = some i) :
    ∃ op, AluOp.ofCode (opImmCode (f7.extractLsb' 5 1) f3) = some op ∧
      ∀ s, exec i s = .next (opImm op rd rs1 imm s) := by
  unfold selectShift at h
  split at h <;> cases h
  all_goals exact ⟨_, rfl, fun s => congrArg Host.Outcome.next (opImm_shamtOperand (by decide) ..)⟩

/-- The discriminant's bit 5 is `imm[10]`, so the immediate shifts choose as the rest of OP-IMM does. -/
theorem exec_of_selectOpImm (h : selectOpImm f3 rd rs1 imm = some i) :
    ∃ op, AluOp.ofCode (opImmCode (imm.extractLsb' 10 1) f3) = some op ∧
      ∀ s, exec i s = .next (opImm op rd rs1 imm s) := by
  by_cases hs : f3 = 0b001#3 ∨ f3 = 0b101#3
  · rw [selectOpImm_eq_selectShift hs] at h
    have hbit : (imm.extractLsb' 5 7).extractLsb' 5 1 = imm.extractLsb' 10 1 := by
      ext k hk
      interval_cases k
      simp
    rw [← hbit]
    exact exec_of_selectShift h
  · rw [opImmCode_of_ne _ fun h5 => hs (.inr h5)]
    unfold selectOpImm at h
    split at h
    case h_1 | h_2 | h_3 | h_4 | h_5 | h_6 => cases h; exact ⟨_, rfl, fun _ => rfl⟩
    case h_7 | h_8 => simp at hs
    case h_9 => cases h

theorem dataAccess_of_selectLoad (h : selectLoad f3 rd rs1 imm = some i) (s : State) :
    ∃ w, dataAccess i s = some (s.reg rs1 + imm, w) := by
  unfold selectLoad at h
  split at h <;> cases h
  all_goals exact ⟨_, rfl⟩

theorem dataAccess_of_selectStore (h : selectStore f3 rs1 rs2 imm = some i) (s : State) :
    ∃ w, dataAccess i s = some (s.reg rs1 + imm, w) := by
  unfold selectStore at h
  split at h <;> cases h
  all_goals exact ⟨_, rfl⟩

theorem exec_of_selectJalr (h : selectJalr f3 rd rs1 imm = some i) (s : State) :
    exec i s = .next (jumpAndLink rd (jalrTarget rs1 imm s) s) := by
  unfold selectJalr at h
  split at h <;> cases h
  rfl

theorem exec_of_selectBranch (h : selectBranch f3 rs1 rs2 imm = some i) :
    ∃ k, BranchKind.ofFunct3 f3 = some k ∧ ∀ s, exec i s = .next (branch k rs1 rs2 imm s) := by
  unfold selectBranch at h
  split at h <;> cases h
  all_goals exact ⟨_, rfl, fun _ => rfl⟩

end

/-- Settles O23, group by group: the code the fields give is that of the operation the instruction performs. -/
theorem aluSelection : Obligations.AluSelection := by
  unfold Obligations.AluSelection
  intro raw i hd
  refine ⟨fun hop => ?op, fun hop => ?opImm, fun hop => ?load, fun hop => ?store, fun hop => ?lui, fun hop => ?auipc,
    fun hop => ?jal, fun hop => ?jalr, fun hop => ?branch⟩
  case op =>
    rw [decode_op hop rfl rfl, answer_eq_ok_iff] at hd
    obtain ⟨op, hcode, hexec⟩ := exec_of_selectOp hd
    exact ⟨op, _, aluCodeOf_op hop, hcode, fun s => ⟨_, hexec s, wrote_writeResult ..⟩⟩
  case opImm =>
    rw [decode_opImm hop rfl, answer_eq_ok_iff] at hd
    obtain ⟨op, hcode, hexec⟩ := exec_of_selectOpImm hd
    exact ⟨op, _, aluCodeOf_opImm hop, hcode, fun s => ⟨_, hexec s, wrote_writeResult ..⟩⟩
  case load =>
    rw [decode_load hop rfl, answer_eq_ok_iff] at hd
    exact choosesAlu_add (by simp [hop]) (dataAccess_of_selectLoad hd)
  case store =>
    rw [decode_store hop rfl, answer_eq_ok_iff] at hd
    exact choosesAlu_add (by simp [hop]) (dataAccess_of_selectStore hd)
  case lui =>
    cases (decode_lui hop).symm.trans hd
    refine choosesAlu_add (by simp [hop]) fun s => ⟨_, rfl, ?_⟩
    rw [alu, BitVec.zero_add]
    exact wrote_writeResult ..
  case auipc =>
    cases (decode_auipc hop).symm.trans hd
    exact choosesAlu_add (by simp [hop]) fun s => ⟨_, rfl, wrote_writeResult ..⟩
  case jal =>
    cases (decode_jal hop).symm.trans hd
    exact choosesAlu_add (by simp [hop]) fun s => ⟨_, rfl, wrote_jumpAndLink ..⟩
  case jalr =>
    rw [decode_jalr hop rfl, answer_eq_ok_iff] at hd
    exact choosesAlu_add (by simp [hop]) fun s => ⟨_, exec_of_selectJalr hd s, wrote_jumpAndLink ..⟩
  case branch =>
    rw [decode_branch hop rfl, answer_eq_ok_iff] at hd
    obtain ⟨k, hkind, hexec⟩ := exec_of_selectBranch hd
    exact ⟨k, hkind, fun s => ⟨_, hexec s, wentTo_branch ..⟩⟩

end Sys2Proof.Machine
end

section
/-! The register-register instructions, opcode OP (R96 to R106). -/

namespace Sys2Proof.Machine

open Sys2Proof.Claims

theorem alu_slt_eq_ite (a b : Word) : alu .slt a b = if a.toInt < b.toInt then 1#32 else 0#32 :=
  (aluComparisons a b).left

theorem alu_sltu_eq_ite (a b : Word) : alu .sltu a b = if a.toNat < b.toNat then 1#32 else 0#32 :=
  (aluComparisons a b).right

/-- A row of opcode OP: its function bits select the instruction, which performs one ALU operation (R68, R96). -/
theorem opRow_of_alu {code : Word} {mk : RegIdx → RegIdx → RegIdx → Instr} (op : AluOp) {f : Word → Word → Word}
    (hop : opcodeOf code = 0b0110011#7)
    (hselect : ∀ rd rs1 rs2, selectOp (funct7Of code) (funct3Of code) rd rs1 rs2 = some (mk rd rs1 rs2))
    (hexec : ∀ rd rs1 rs2 s, exec (mk rd rs1 rs2) s = .next (opReg op rd rs1 rs2 s))
    (halu : ∀ a b, alu op a b = f a b) : OpRow code mk f := by
  refine ⟨fun raw hraw => ?decodes, fun rd rs1 rs2 s => ⟨_, hexec rd rs1 rs2 s, ?wrote⟩⟩
  case decodes =>
    rw [decode_op ((opcodeOf_of_masked hraw rfl).trans hop) (funct7Of_of_masked hraw rfl)
      (funct3Of_of_masked hraw rfl), answer_eq_ok_iff]
    exact hselect ..
  case wrote =>
    rw [← halu]
    exact wrote_writeResult ..

/-- Settles O24, row by row: the instruction each row selects and the ALU operation it performs. -/
theorem registerRegisterInstructions : Obligations.RegisterRegisterInstructions := by
  unfold Obligations.RegisterRegisterInstructions
  refine ⟨opRow_of_alu .add rfl ?_ ?_ ?_, opRow_of_alu .sub rfl ?_ ?_ ?_, opRow_of_alu .sll rfl ?_ ?_ alu_sll,
    opRow_of_alu .slt rfl ?_ ?_ alu_slt_eq_ite, opRow_of_alu .sltu rfl ?_ ?_ alu_sltu_eq_ite,
    opRow_of_alu .xor rfl ?_ ?_ ?_, opRow_of_alu .srl rfl ?_ ?_ alu_srl, opRow_of_alu .sra rfl ?_ ?_ alu_sra,
    opRow_of_alu .or rfl ?_ ?_ ?_, opRow_of_alu .and rfl ?_ ?_ ?_⟩
  all_goals intros; rfl

end Sys2Proof.Machine
end

section
/-! The register-immediate instructions, opcode OP-IMM (R107 to R116). -/

namespace Sys2Proof.Machine

open Sys2Proof.Claims

/-- The amount of an immediate shift is the whole of its five-bit field (R88, R114). -/
theorem toNat_shamtOperand_mod (shamt : BitVec 5) : (shamtOperand shamt).toNat % 32 = shamt.toNat := by
  rw [shamtOperand, BitVec.toNat_setWidth_of_le (by decide), Nat.mod_eq_of_lt shamt.isLt]

section
variable {code : Word} (op : AluOp) (hop : opcodeOf code = 0b0010011#7)
include hop

/-- A row of opcode OP-IMM that is no shift: `funct3` alone selects it, and it performs one ALU operation (R68, R107). -/
theorem opImmRow_of_alu {mk : RegIdx → RegIdx → Word → Instr} {f : Word → Word → Word}
    (hselect : ∀ rd rs1 imm, selectOpImm (funct3Of code) rd rs1 imm = some (mk rd rs1 imm))
    (hexec : ∀ rd rs1 imm s, exec (mk rd rs1 imm) s = .next (opImm op rd rs1 imm s))
    (halu : ∀ a b, alu op a b = f a b) : OpImmRow code mk f := by
  refine ⟨fun raw hraw => ?decodes, fun rd rs1 imm s => ⟨_, hexec rd rs1 imm s, ?wrote⟩⟩
  case decodes =>
    rw [decode_opImm ((opcodeOf_of_masked hraw rfl).trans hop) (funct3Of_of_masked hraw rfl), answer_eq_ok_iff]
    exact hselect ..
  case wrote =>
    rw [← halu]
    exact wrote_writeResult ..

/-- An immediate shift: the discriminant and `funct3` select it, and the ALU's amount is its field (R114 to R116). -/
theorem shiftRow_of_alu {mk : RegIdx → RegIdx → BitVec 5 → Instr} {f : Word → Nat → Word}
    (hshift : funct3Of code = 0b001#3 ∨ funct3Of code = 0b101#3)
    (hselect : ∀ rd rs1 shamt,
      selectShift (funct7Of code) (funct3Of code) rd rs1 shamt = some (mk rd rs1 shamt))
    (hexec : ∀ rd rs1 shamt s, exec (mk rd rs1 shamt) s = .next (opImm op rd rs1 (shamtOperand shamt) s))
    (halu : ∀ a b, alu op a b = f a (b.toNat % 32)) : ShiftRow code mk f := by
  refine ⟨fun raw hraw => ?decodes, fun rd rs1 shamt s => ⟨_, hexec rd rs1 shamt s, ?wrote⟩⟩
  case decodes =>
    rw [decode_shift ((opcodeOf_of_masked hraw rfl).trans hop) (funct7Of_of_masked hraw rfl)
      (funct3Of_of_masked hraw rfl) hshift, answer_eq_ok_iff]
    exact hselect ..
  case wrote =>
    rw [← toNat_shamtOperand_mod, ← halu]
    exact wrote_writeResult ..

end

/-- Settles O25, row by row as O24; a shift word of another discriminant selects no instruction (R69). -/
theorem registerImmediateInstructions : Obligations.RegisterImmediateInstructions := by
  unfold Obligations.RegisterImmediateInstructions
  refine ⟨opImmRow_of_alu .add rfl ?_ ?_ ?_, opImmRow_of_alu .slt rfl ?_ ?_ alu_slt_eq_ite,
    opImmRow_of_alu .sltu rfl ?_ ?_ alu_sltu_eq_ite, opImmRow_of_alu .xor rfl ?_ ?_ ?_,
    opImmRow_of_alu .or rfl ?_ ?_ ?_, opImmRow_of_alu .and rfl ?_ ?_ ?_,
    shiftRow_of_alu .sll rfl (.inl rfl) ?_ ?_ alu_sll, shiftRow_of_alu .srl rfl (.inr rfl) ?_ ?_ alu_srl,
    shiftRow_of_alu .sra rfl (.inr rfl) ?_ ?_ alu_sra, fun s raw hf hop hbits => ?rejected⟩
  case rejected =>
    refine illegalFunctionCodes.right s raw hf ?_
    rw [decode_opImm hop rfl, answer_eq_unknownFunction_iff, selectOpImm_eq_none_iff, immI_extractLsb'_discriminant]
    exact hbits
  all_goals intros; rfl

end Sys2Proof.Machine
end

section
/-! The upper-immediate instructions, LUI and AUIPC (R117, R118). -/

namespace Sys2Proof.Machine

open Sys2Proof.Claims

/-- The U immediate is the upper 20 bits of the word left where they stand, neither extended nor shifted (R59). -/
theorem immU_eq_and (raw : Word) : immU raw = raw &&& 0xFFFFF000#32 := by
  refine BitVec.eq_of_getLsbD_eq fun k hk => ?_
  rw [getLsbD_immU raw hk, BitVec.getLsbD_and]
  interval_cases k <;> simp

/-- Settles O26: the opcode alone selects each row, its immediate is in place, and `exec` ends in `writeResult`. -/
theorem upperImmediateInstructions : Obligations.UpperImmediateInstructions := by
  unfold Obligations.UpperImmediateInstructions
  refine ⟨fun raw hraw => ?luiDecodes, fun raw hraw => ?auipcDecodes,
    fun _ _ _ => ⟨_, rfl, wrote_writeResult ..⟩, fun _ _ _ => ⟨_, rfl, wrote_writeResult ..⟩⟩
  case luiDecodes =>
    rw [← immU_eq_and]
    exact decode_lui (opcodeOf_of_masked hraw rfl)
  case auipcDecodes =>
    rw [← immU_eq_and]
    exact decode_auipc (opcodeOf_of_masked hraw rfl)

end Sys2Proof.Machine
end

section
/-! The halts of a Step whose pc no word can be fetched from (R44, R148, R149). -/

namespace Sys2Proof.Machine

open Sys2Proof.Claims

/-- A halt writes the halt record and keeps everything else (R151). -/
theorem haltedWith_halt (s : State) (c : HaltCause) (w : Word) : HaltedWith s (s.halt c w) c w :=
  ⟨rfl, rfl, rfl, rfl, fun _ => rfl, memoryKept_of_eq rfl⟩

theorem fetch_beyond_end {s : State} (h : s.mem.size ≤ s.pc.toNat) : fetch s = .endOfProgram := if_pos h

theorem fetch_misaligned {s : State} (h1 : s.pc.toNat < s.mem.size) (h2 : s.pc.toNat % 4 ≠ 0) :
    fetch s = .fault (.fetchMisaligned s.pc) := by
  have hlow : s.pc.extractLsb' 0 2 ≠ 0b00#2 := mt (low_bits_zero_iff s.pc).mp h2
  rw [fetch, if_neg h1.not_ge, if_pos hlow]

theorem step_beyond_end {s : State} (hr : s.runState = .running) (h : s.mem.size ≤ s.pc.toNat) :
    ∃ t, step s = .next t ∧ HaltedWith s t .endOfProgram s.pc := by
  refine ⟨s.endProgram, ?_, haltedWith_halt ..⟩
  rw [step_running hr, stepRunning, fetch_beyond_end h]

theorem step_misaligned {s : State} (hr : s.runState = .running) (h1 : s.pc.toNat < s.mem.size)
    (h2 : s.pc.toNat % 4 ≠ 0) : ∃ t, step s = .next t ∧ HaltedWith s t .fetchMisaligned s.pc := by
  refine ⟨s.raise (.fetchMisaligned s.pc), ?_, haltedWith_halt ..⟩
  rw [step_running hr, stepRunning, fetch_misaligned h1 h2]

end Sys2Proof.Machine
end

section
/-! The jumps, JAL and JALR (R119 to R121). -/

namespace Sys2Proof.Machine

open Sys2Proof.Claims

/-- Settles O27: `exec` ends in `jumpAndLink`, and a word of opcode JALR selects an instruction only with `funct3` 000. -/
theorem jumpInstructions : Obligations.JumpInstructions := by
  unfold Obligations.JumpInstructions
  refine ⟨fun raw hraw => decode_jal (opcodeOf_of_masked hraw rfl), fun raw hraw => ?jalrDecodes,
    fun _ _ _ => ⟨_, rfl, wrote_jumpAndLink ..⟩, fun _ _ _ _ => ⟨_, rfl, wrote_jumpAndLink ..⟩,
    fun s raw hf hop hf3 => ?rejected⟩
  case jalrDecodes =>
    rw [decode_jalr (opcodeOf_of_masked hraw rfl) (funct3Of_of_masked hraw rfl), answer_eq_ok_iff]
    rfl
  case rejected =>
    refine illegalFunctionCodes.right s raw hf ?_
    rw [decode_jalr hop rfl, answer_eq_unknownFunction_iff, selectJalr_eq_none_iff]
    exact hf3

/-- Settles O32: a completed jump keeps the run state and the length of memory, so the next Step tests the target. -/
theorem jumpTargetsUnchecked : Obligations.JumpTargetsUnchecked := by
  unfold Obligations.JumpTargetsUnchecked
  intro s raw i rd target hf hd hjump
  obtain ⟨hrun, hmod, hin, rfl⟩ := hf
  obtain ⟨-, -, hjal, hjalr, -⟩ := jumpInstructions
  have hexec : ∃ t, exec i s = .next t ∧ Wrote s t rd (s.pc + 4#32) target := by
    obtain ⟨imm, rfl, rfl⟩ | ⟨rs1, imm, rfl, rfl⟩ := hjump
    · exact hjal rd imm s
    · exact hjalr rd rs1 imm s
  obtain ⟨t, ht, hwrote⟩ := hexec
  have ⟨_, hpc, ⟨hsize, _⟩, hkept, _⟩ := hwrote
  subst hpc
  have hrun' : t.runState = .running := hkept.trans hrun
  refine ⟨t, (step_eq_exec hrun hmod hin hd).trans ht, hwrote, fun hend => ?beyondEnd, fun hlt hmis => ?misaligned⟩
  case beyondEnd => exact step_beyond_end hrun' (hsize.trans_le hend)
  case misaligned => exact step_misaligned hrun' (hlt.trans_eq hsize.symm) hmis

end Sys2Proof.Machine
end

section
/-! The conditional branches, opcode BRANCH (R122 to R128). -/

namespace Sys2Proof.Machine

open Sys2Proof.Claims

/-- A row of opcode BRANCH: `funct3` alone selects it, and it compares with one kind of the comparator (R90, R122). -/
theorem branchRow_of_kind {code : Word} {mk : RegIdx → RegIdx → Word → Instr} {cond : Word → Word → Prop}
    (kind : BranchKind) (hop : opcodeOf code = 0b1100011#7)
    (hselect : ∀ rs1 rs2 imm, selectBranch (funct3Of code) rs1 rs2 imm = some (mk rs1 rs2 imm))
    (hexec : ∀ rs1 rs2 imm s, exec (mk rs1 rs2 imm) s = .next (branch kind rs1 rs2 imm s))
    (htaken : ∀ a b, branchTaken kind a b = true ↔ cond a b) : BranchRow code mk cond := by
  refine ⟨fun raw hraw => ?decodes, fun rs1 rs2 imm s => ⟨_, hexec rs1 rs2 imm s, ?wentTo⟩⟩
  case decodes =>
    rw [decode_branch ((opcodeOf_of_masked hraw rfl).trans hop) (funct3Of_of_masked hraw rfl), answer_eq_ok_iff]
    exact hselect ..
  case wentTo =>
    have hwent := wentTo_branch kind rs1 rs2 imm s
    rw [← htaken]
    exact ⟨fun htrue => by rwa [if_pos htrue] at hwent, fun hfalse => by rwa [if_neg hfalse] at hwent⟩

/-- Settles O28, row by row through the comparator; a word of `funct3` 010 or 011 selects no instruction (R69). -/
theorem branchInstructions : Obligations.BranchInstructions := by
  unfold Obligations.BranchInstructions
  refine ⟨branchRow_of_kind .eq rfl ?_ ?_ fun a b => ?eq, branchRow_of_kind .ne rfl ?_ ?_ fun a b => ?ne,
    branchRow_of_kind .lt rfl ?_ ?_ lessSigned_iff, branchRow_of_kind .ge rfl ?_ ?_ fun a b => ?ge,
    branchRow_of_kind .ltu rfl ?_ ?_ lessUnsigned_iff, branchRow_of_kind .geu rfl ?_ ?_ fun a b => ?geu,
    fun s raw hf hop hf3 => ?rejected⟩
  case eq | ne | ge | geu => simp [branchTaken, ← Bool.not_eq_true]
  case rejected =>
    refine illegalFunctionCodes.right s raw hf ?_
    rw [decode_branch hop rfl, answer_eq_unknownFunction_iff, selectBranch_eq_none_iff]
    exact hf3
  all_goals intros; rfl

end Sys2Proof.Machine
end

section
/-! The loads, opcode LOAD (R129 to R134). -/

namespace Sys2Proof.Machine

open Sys2Proof.Claims

/-- A load that passes the end of memory halts the hart (R129, R147). -/
theorem load_of_past_end {w : Width} {e : Extension} {rd rs1 : RegIdx} {imm : Word} {s : State}
    (h : s.mem.size < (s.reg rs1 + imm).toNat + w.bytes) :
    load w e rd rs1 imm s = s.raise (.outOfBounds (s.reg rs1 + imm)) := by
  rcases load_cases w e rd rs1 imm s with ⟨hb, -⟩ | ⟨-, hl⟩
  · omega
  · exact hl

/-- A row of opcode LOAD: `funct3` alone selects it, and it loads with one width and one extension (R68, R129). -/
theorem loadRow_of_load {code : Word} {mk : RegIdx → RegIdx → Word → Instr} (w : Width) (e : Extension)
    (hop : opcodeOf code = 0b0000011#7)
    (hselect : ∀ rd rs1 imm, selectLoad (funct3Of code) rd rs1 imm = some (mk rd rs1 imm))
    (hexec : ∀ rd rs1 imm s, exec (mk rd rs1 imm) s = .next (load w e rd rs1 imm s)) :
    LoadRow code mk w.bytes (extend e) := by
  refine ⟨fun raw hraw => ?decodes,
    fun rd rs1 imm s hin => ⟨_, s.mem.readBytes (s.reg rs1 + imm).toNat w.bytes, hexec rd rs1 imm s,
      fun k hk => Memory.extractLsb'_readBytes _ _ hk, ?wrote⟩,
    fun rd rs1 imm s hpast => ⟨_, hexec rd rs1 imm s, ?halted⟩⟩
  case decodes =>
    rw [decode_load ((opcodeOf_of_masked hraw rfl).trans hop) (funct3Of_of_masked hraw rfl), answer_eq_ok_iff]
    exact hselect ..
  case wrote =>
    rw [load_of_inside hin]
    exact wrote_writeResult ..
  case halted =>
    rw [load_of_past_end hpast]
    exact haltedWith_halt ..

/-- Settles O29, row by width and extension; a word of `funct3` 011, 110 or 111 selects no instruction (R69). -/
theorem loadInstructions : Obligations.LoadInstructions := by
  unfold Obligations.LoadInstructions
  refine ⟨loadRow_of_load .byte .sext rfl ?_ ?_, loadRow_of_load .halfWord .sext rfl ?_ ?_,
    loadRow_of_load .word .zext rfl ?_ ?_, loadRow_of_load .byte .zext rfl ?_ ?_,
    loadRow_of_load .halfWord .zext rfl ?_ ?_, fun s raw hf hop hf3 => ?rejected⟩
  case rejected =>
    refine illegalFunctionCodes.right s raw hf ?_
    rw [decode_load hop rfl, answer_eq_unknownFunction_iff, selectLoad_eq_none_iff]
    exact hf3
  all_goals intros; rfl

end Sys2Proof.Machine
end

section
/-! The stores, opcode STORE (R135 to R138). -/

namespace Sys2Proof.Machine

open Sys2Proof.Claims

/-- A store that passes the end of memory halts the hart and writes no byte (R135, R147). -/
theorem store_of_past_end {w : Width} {rs1 rs2 : RegIdx} {imm : Word} {s : State}
    (h : s.mem.size < (s.reg rs1 + imm).toNat + w.bytes) :
    store w rs1 rs2 imm s = s.raise (.outOfBounds (s.reg rs1 + imm)) := by
  rcases store_cases w rs1 rs2 imm s with ⟨hb, -⟩ | ⟨-, hs⟩
  · omega
  · exact hs

/-- What the completion of a store leaves: the bytes written, and everything else as it was (R32, R135). -/
theorem stored_writeBytes {s : State} {addr : Word} {n : Nat} (v : Word) (hwf : s.mem.wf = true)
    (hin : addr.toNat + n ≤ s.mem.size) :
    Stored s (s.setMem (s.mem.writeBytes addr.toNat n v)).advance addr n v (s.pc + 4#32) :=
  ⟨fun _ hk => Memory.readByte_writeBytes_of_inside hwf v hin hk,
    fun _ ha => Memory.readByte_writeBytes_of_outside s.mem v ha,
    Memory.writeBytes_size .., fun _ => rfl, rfl, rfl, rfl, rfl⟩

/-- A row of opcode STORE: `funct3` alone selects it, and it stores with one width (R68, R135). -/
theorem storeRow_of_store {code : Word} {mk : RegIdx → RegIdx → Word → Instr} (w : Width)
    (hop : opcodeOf code = 0b0100011#7)
    (hselect : ∀ rs1 rs2 imm, selectStore (funct3Of code) rs1 rs2 imm = some (mk rs1 rs2 imm))
    (hexec : ∀ rs1 rs2 imm s, exec (mk rs1 rs2 imm) s = .next (store w rs1 rs2 imm s)) :
    StoreRow code mk w.bytes := by
  refine ⟨fun raw hraw => ?decodes, fun rs1 rs2 imm s hwf hin => ⟨_, hexec rs1 rs2 imm s, ?stored⟩,
    fun rs1 rs2 imm s hpast => ⟨_, hexec rs1 rs2 imm s, ?halted⟩⟩
  case decodes =>
    rw [decode_store ((opcodeOf_of_masked hraw rfl).trans hop) (funct3Of_of_masked hraw rfl), answer_eq_ok_iff]
    exact hselect ..
  case stored =>
    rw [store_of_inside hin]
    exact stored_writeBytes _ hwf hin
  case halted =>
    rw [store_of_past_end hpast]
    exact haltedWith_halt ..

/-- Settles O30, row by width; a word of `funct3` 011 to 111 selects no instruction (R69). -/
theorem storeInstructions : Obligations.StoreInstructions := by
  unfold Obligations.StoreInstructions
  refine ⟨storeRow_of_store .byte rfl ?_ ?_, storeRow_of_store .halfWord rfl ?_ ?_,
    storeRow_of_store .word rfl ?_ ?_, fun s raw hf hop hf3 => ?rejected⟩
  case rejected =>
    refine illegalFunctionCodes.right s raw hf ?_
    rw [decode_store hop rfl, answer_eq_unknownFunction_iff, selectStore_eq_none_iff]
    exact hf3
  all_goals intros; rfl

end Sys2Proof.Machine
end

section
/-! The absent instructions (R139 to R144). -/

namespace Sys2Proof

open Sys2Proof.Machine Sys2Proof.Claims

/-- A Step that fetches a word with an unmapped opcode halts with IllegalInstruction and the word (R65, R146). -/
theorem step_of_unmapped {s : State} {raw : Word} (hf : Fetches s raw) (h : layoutOf (opcodeOf raw) = none) :
    ∃ t, step s = .next t ∧ HaltedWith s t .illegalInstruction raw :=
  step_of_rejected hf fun i => by simp [decode_of_unmapped h]

/-- Every mapped opcode ends in 11, so a 16-bit form has an unmapped one (R61, R143). -/
theorem layoutOf_eq_none_of_low_bits {op : BitVec 7} (h : op.extractLsb' 0 2 ≠ 0b11#2) : layoutOf op = none := by
  rw [layoutOf_eq_none_iff]
  intro hmem
  simp only [List.mem_cons, List.not_mem_nil, or_false] at hmem
  obtain rfl | rfl | rfl | rfl | rfl | rfl | rfl | rfl | rfl := hmem <;> exact h rfl

theorem opcodeOf_low_bits (raw : Word) : (opcodeOf raw).extractLsb' 0 2 = raw.extractLsb' 0 2 := by
  rw [opcodeOf, BitVec.extractLsb'_extractLsb'_of_le (by decide)]

theorem funct7Of_low_bit (raw : Word) : (funct7Of raw).extractLsb' 0 1 = raw.extractLsb' 25 1 := by
  ext i hi
  simp [funct7Of]
  omega

/-- Settles O9: the opcode is unmapped, or the function bits are on the list of R69. -/
theorem absentInstructionsHalt : Obligations.AbsentInstructionsHalt := by
  unfold Obligations.AbsentInstructionsHalt
  intro s raw hf habsent
  obtain ⟨hlist, hunknown⟩ := illegalFunctionCodes
  have hillegal := fun h => hunknown s raw hf ((hlist raw).mpr h)
  have hunmapped {op : BitVec 7} (hop : opcodeOf raw = op) (h : layoutOf op = none) := step_of_unmapped hf (hop ▸ h)
  obtain hop | hop | ⟨hop, hf7⟩ | hop | hlow | ⟨hop, hf3⟩ | ⟨hop, hf3⟩ | hop | hop | ⟨hop, hf3, hbit⟩ := habsent
  · exact hunmapped hop rfl
  · exact hunmapped hop rfl
  · exact hillegal (by simp [hop, hf7])
  · have hnone : ∀ op ∈ [0b0101111#7, 0b0000111#7, 0b0100111#7, 0b1010011#7, 0b1000011#7, 0b1000111#7, 0b1001011#7,
        0b1001111#7, 0b1010111#7, 0b0001011#7, 0b0101011#7, 0b1011011#7, 0b1111011#7], layoutOf op = none := by decide
    exact step_of_unmapped hf (hnone _ hop)
  · rw [← opcodeOf_low_bits] at hlow
    exact step_of_unmapped hf (layoutOf_eq_none_of_low_bits hlow)
  · exact hillegal (by obtain hf3 | hf3 := hf3 <;> simp [hop, hf3])
  · exact hillegal (by simp [hop, hf3])
  · exact hunmapped hop rfl
  · exact hunmapped hop rfl
  · rw [← funct7Of_low_bit] at hbit
    have h0 : funct7Of raw ≠ 0b0000000#7 := fun h => by simp [h] at hbit
    have h32 : funct7Of raw ≠ 0b0100000#7 := fun h => by simp [h] at hbit
    exact hillegal (by obtain hf3 | hf3 := hf3 <;> simp [hop, hf3, h0, h32])

end Sys2Proof
end

section
/-! The halts of a Step: what they write, their causes and their order (R145, R151, R153, R162). -/

namespace Sys2Proof.Machine

open Sys2Proof.Claims

/-- A Step that halts a Running hart writes a true halt record and nothing else (R151). -/
theorem step_halts {s t : State} (hr : s.runState = .running) (h : step s = .next t) (ht : t.runState = .halted) :
    ∃ c w, t = s.halt c w ∧ (s.halt c w).haltRecordTrue := by
  cases step_effect h with
  | stays hr' _ => rw [hr] at hr'; contradiction
  | halts _ c w heq hrec => exact ⟨c, w, heq, heq ▸ hrec⟩
  | completes _ hdone =>
    have := ht.symm.trans (hdone.run.1.trans hr)
    contradiction

/-- No true halt record of a Halted hart has cause None (R20). -/
theorem not_haltRecordTrue_halt_none (s : State) (w : Word) : ¬ (s.halt .none w).haltRecordTrue := id

/-- Settles O33: the Step is a halt with a true record, whose cause is not None. -/
theorem haltChangesOnlyHaltRecord : Obligations.HaltChangesOnlyHaltRecord := by
  unfold Obligations.HaltChangesOnlyHaltRecord
  intro s t hr h ht
  obtain ⟨c, w, rfl, hrec⟩ := step_halts hr h ht
  refine ⟨c, w, ?_, haltedWith_halt s c w⟩
  rintro rfl
  exact not_haltRecordTrue_halt_none s w hrec

/-- Settles O35, cause by cause from the true record the halt leaves. -/
theorem fourWaysToHalt : Obligations.FourWaysToHalt := by
  unfold Obligations.FourWaysToHalt
  intro s t hr h ht
  obtain ⟨c, w, rfl, hrec⟩ := step_halts hr h ht
  cases c with
  | none => exact absurd hrec (not_haltRecordTrue_halt_none s w)
  | endOfProgram =>
    obtain ⟨-, hinfo, hend⟩ := (State.haltRecordTrue_endOfProgram_iff rfl).mp hrec
    exact .inl ⟨rfl, hinfo, hend⟩
  | illegalInstruction =>
    obtain ⟨-, hinfo, -, -, hd⟩ := (State.haltRecordTrue_illegalInstruction_iff rfl).mp hrec
    exact .inr (.inl ⟨rfl, hinfo, hd⟩)
  | outOfBounds =>
    obtain ⟨-, -, hin, ⟨hinfo, hpast⟩ | ⟨-, i, n, hd, hacc, hpast⟩⟩ :=
      (State.haltRecordTrue_outOfBounds_iff rfl).mp hrec
    · exact .inr (.inr (.inl ⟨rfl, hinfo, hin, hpast⟩))
    · exact .inr (.inr (.inr (.inl ⟨rfl, i, n, hd, hacc, hpast⟩)))
  | fetchMisaligned =>
    obtain ⟨-, hinfo, hin, hmis⟩ := (State.haltRecordTrue_fetchMisaligned_iff rfl).mp hrec
    exact .inr (.inr (.inr (.inr ⟨rfl, hinfo, hin, mt (low_bits_zero_iff s.pc).mp hmis⟩)))

/-- The true record of a Halted hart has cause EndOfProgram exactly when the pc is at or beyond the end (R145, R149). -/
theorem State.haltCause_eq_endOfProgram_iff {s : State} (h : s.haltRecordTrue) (hr : s.runState = .halted) :
    s.haltCause = .endOfProgram ↔ s.mem.size ≤ s.pc.toNat := by
  cases hc : s.haltCause with
  | none =>
    obtain ⟨hrun, -⟩ := (State.haltRecordTrue_none_iff hc).mp h
    simp [hr] at hrun
  | endOfProgram =>
    obtain ⟨-, -, hend⟩ := (State.haltRecordTrue_endOfProgram_iff hc).mp h
    simp [hend]
  | illegalInstruction =>
    obtain ⟨-, -, -, hin, -⟩ := (State.haltRecordTrue_illegalInstruction_iff hc).mp h
    have hlt : s.pc.toNat < s.mem.size := by omega
    simp [hlt]
  | outOfBounds =>
    obtain ⟨-, -, hin, -⟩ := (State.haltRecordTrue_outOfBounds_iff hc).mp h
    simp [hin]
  | fetchMisaligned =>
    obtain ⟨-, -, hin, -⟩ := (State.haltRecordTrue_fetchMisaligned_iff hc).mp h
    simp [hin]

theorem State.endedWell_halt_iff (s : State) (c : HaltCause) (w : Word) :
    (s.halt c w).endedWell = true ↔ c = .endOfProgram := decide_eq_true_iff

theorem State.endedAbnormally_halt_iff (s : State) {c : HaltCause} (w : Word) (hc : c ≠ .none) :
    (s.halt c w).endedAbnormally = true ↔ c ≠ .endOfProgram := by
  cases c <;> simp [State.endedAbnormally] at hc ⊢

/-- Settles O38: the two ends are told apart by the cause, and the cause by the pc. -/
theorem driverClassifiesHalt : Obligations.DriverClassifiesHalt := by
  unfold Obligations.DriverClassifiesHalt
  intro s t hr h ht
  obtain ⟨c, w, rfl, hrec⟩ := step_halts hr h ht
  have hnone : c ≠ .none := by
    rintro rfl
    exact not_haltRecordTrue_halt_none s w hrec
  have hend : c = .endOfProgram ↔ s.mem.size ≤ s.pc.toNat := State.haltCause_eq_endOfProgram_iff hrec rfl
  rw [State.endedWell_halt_iff, State.endedAbnormally_halt_iff s w hnone, ne_eq, hend, Nat.not_le]
  exact ⟨Iff.rfl, Iff.rfl⟩

/-! ### The order of the checks -/

theorem fetch_past_end {s : State} (h1 : s.pc.toNat < s.mem.size) (h2 : s.pc.toNat % 4 = 0)
    (h3 : s.mem.size < s.pc.toNat + 4) : fetch s = .fault (.outOfBounds s.pc) := by
  have hlow : ¬ s.pc.extractLsb' 0 2 ≠ 0b00#2 := not_not.mpr ((low_bits_zero_iff s.pc).mpr h2)
  have hread : s.mem.read s.pc .word = .error (.outOfBounds s.pc) := Memory.read_error h3
  rw [fetch, if_neg h1.not_ge, if_neg hlow, hread]

theorem step_fetch_past_end {s : State} (hr : s.runState = .running) (h1 : s.pc.toNat < s.mem.size)
    (h2 : s.pc.toNat % 4 = 0) (h3 : s.mem.size < s.pc.toNat + 4) :
    ∃ t, step s = .next t ∧ HaltedWith s t .outOfBounds s.pc := by
  refine ⟨s.raise (.outOfBounds s.pc), ?_, haltedWith_halt ..⟩
  rw [step_running hr, stepRunning, fetch_past_end h1 h2 h3]

/-- A load or a store whose access passes the end of memory halts the hart with its address (R147). -/
theorem exec_of_access_past_end {i : Instr} {s : State} {ea : Word} {w : Width} (hd : dataAccess i s = some (ea, w))
    (h : s.mem.size < ea.toNat + w.bytes) : exec i s = .next (s.raise (.outOfBounds ea)) := by
  cases i with
  | lb | lh | lw | lbu | lhu => cases hd; exact congrArg _ (load_of_past_end h)
  | sb | sh | sw => cases hd; exact congrArg _ (store_of_past_end h)
  | lui | auipc | jal | jalr | beq | bne | blt | bge | bltu | bgeu => cases hd
  | addi | slti | sltiu | xori | ori | andi | slli | srli | srai => cases hd
  | add | sub | sll | slt | sltu | xor | srl | sra | or | and => cases hd

/-- Settles O34, check by check: the three of the fetch, the decoder's, and the bounds test of the data access. -/
theorem haltPriority : Obligations.HaltPriority := by
  unfold Obligations.HaltPriority
  intro s hr
  refine ⟨step_beyond_end hr, step_misaligned hr, step_fetch_past_end hr,
    fun hmod hin hd => step_of_rejected ⟨hr, hmod, hin, rfl⟩ hd, fun i ea w hmod hin hd hacc hpast => ?access⟩
  case access =>
    exact ⟨_, (step_eq_exec hr hmod hin hd).trans (exec_of_access_past_end hacc hpast), haltedWith_halt ..⟩

end Sys2Proof.Machine
end

section
/-! Reset with an image and an entry address (R163, R164). -/

namespace Sys2Proof.Machine

open Sys2Proof.Claims

/-- The memory of an image holds its bytes, each at its position (R163). -/
theorem Memory.readByte_ofBytes (bs : List Byte) {a : Nat} (h : a < bs.length) :
    (Memory.ofBytes bs).readByte a = bs[a] :=
  (congrArg (cellAt · (cellsOfBytes 0 bs)) (Nat.zero_add a).symm).trans (cellAt_cellsOfBytes bs 0 a h)

/-- Settles O46: every field but memory is `State.construct`'s, and memory is the image's. -/
theorem resetState : Obligations.ResetState := by
  unfold Obligations.ResetState
  intro memInit resetPc
  exact ⟨State.construct_reg _ _, State.construct_pc _ _, rfl, fun _ h => Memory.readByte_ofBytes memInit h,
    State.construct_runState _ _, State.construct_haltCause _ _, State.construct_haltInfo _ _⟩

/-- Settles O48: reset takes any entry address, and the first Step tests it as it tests every pc. -/
theorem resetPcUnchecked : Obligations.ResetPcUnchecked := by
  unfold Obligations.ResetPcUnchecked
  intro memInit resetPc
  have hrun : (resetWith memInit resetPc).runState = .running := State.construct_runState _ _
  exact ⟨State.construct_pc _ _, hrun, step_beyond_end hrun, step_misaligned hrun⟩

/-- A memory of at most 2^32 bytes that lists no cell is in canonical form. -/
theorem Memory.wf_of_no_cells {size : Nat} (h : size ≤ Config.maxMemLen) :
    Memory.wf { size := size, cells := [] } = true := (Memory.wf_iff _).mpr ⟨h, rfl⟩

/-- Settles O50: both memories are in canonical form, and a hart just reset has cause None and info 0. -/
theorem resetHasInvariant : Obligations.ResetHasInvariant := by
  unfold Obligations.ResetHasInvariant
  exact ⟨⟨Memory.wf_of_no_cells (Nat.le_refl _), rfl⟩, fun _ resetPc h => resetWith_inv resetPc h⟩

end Sys2Proof.Machine
end
